-- ==== Sys2Proof/Word.lean ====
section
/-! DEFINITION. The two word types of ECODEC32 (spec/00_scope.md R8: every value is unsigned). -/

namespace Sys2Proof

/-- A 32-bit register value, packed code or command word (R6 `CODE_W`, R7 `FIELD_REG_W`, R60). -/
abbrev Word := BitVec 32

/-- One byte of the string buffer T, and one ASCII character of the text form (R27, R110). -/
abbrev Byte := BitVec 8

end Sys2Proof
end

