-- ==== Sys2Proof/Syntax.lean ====
section
/-! DEFINITION. The command set ECODEC32-v1: one constructor per row of spec/opcode_table.json
(spec/30_encoding.md R64). Operands are implicit (R62), so no constructor has an argument. -/

namespace Sys2Proof

/-- The six commands of R64. Words that are none of these are illegal (R65) and are no instruction:
`decode` rejects them by name. -/
inductive Instr where
  /-- No operation (spec/42_control.md R142). -/
  | nop
  /-- Pack with masking (spec/40_pack_unpack.md R90). -/
  | enc
  /-- Pack without masking (R95). -/
  | encu
  /-- Unpack (R100). -/
  | dec
  /-- Format K into T (spec/41_string_codec.md R125). -/
  | fmt
  /-- Parse T into K (R127). -/
  | prs
deriving DecidableEq, Repr

end Sys2Proof
end

