-- ==== Sys2Proof/WellFormed.lean ====
section
/-! DEFINITION. Well-formedness of command words and of instructions (spec/30_encoding.md R60, R65). -/

namespace Sys2Proof

/-- The one instruction format, the command word (R60): RSV in bits 31:3, OP in bits 2:0. -/
structure CmdWord where
  /-- Bits 31:3, which must be 0. -/
  rsv : BitVec 29
  /-- Bits 2:0, the operation. -/
  op  : BitVec 3
deriving DecidableEq, Repr

/-- RSV must be 0 (R60). -/
def CmdWord.rsvClear (c : CmdWord) : Bool := c.rsv == 0#29

/-- OP 6 and 7 are reserved (R64). -/
def CmdWord.opAssigned (c : CmdWord) : Bool := decide (c.op.toNat < 6)

/-- A legal command word: neither kind of illegal word of R65. -/
def CmdWord.wf (c : CmdWord) : Bool := c.rsvClear && c.opAssigned

/-- No command has an operand, immediate or mode field (R60, R62, R63), so every term of `Instr` is
well formed; the checks that can fail are those of the command word, `CmdWord.wf`. -/
def Instr.wf : Instr → Bool
  | .nop => true
  | .enc => true
  | .encu => true
  | .dec => true
  | .fmt => true
  | .prs => true

end Sys2Proof
end

