-- ==== Sys2Proof/Decode.lean ====
section
/-! DEFINITION. The decoder and the encoder of command words (spec/30_encoding.md R60, R64, R65, R66). -/

namespace Sys2Proof

/-- Why a command word is illegal (R65). Every illegal word, of either kind, runs IllegalCommand (R143). -/
inductive Illegal where
  /-- `w[31:3] != 0`. -/
  | rsvNonzero
  /-- `w[31:3] = 0` and OP is 6 or 7. -/
  | opReserved
deriving DecidableEq, Repr

/-- The fields of a command word (R60). -/
def CmdWord.ofWord (w : Word) : CmdWord := ⟨w.extractLsb' 3 29, w.extractLsb' 0 3⟩

/-- A command word from its fields (R60). -/
def CmdWord.toWord (c : CmdWord) : Word := c.rsv ++ c.op

/-- The opcode map of R64, rejecting the illegal words of R65 by name. -/
def CmdWord.decode (c : CmdWord) : Except Illegal Instr :=
  if c.rsv ≠ 0#29 then .error .rsvNonzero
  else match c.op.toNat with
    | 0 => .ok .nop
    | 1 => .ok .enc
    | 2 => .ok .encu
    | 3 => .ok .dec
    | 4 => .ok .fmt
    | 5 => .ok .prs
    | _ => .error .opReserved

/-- `decodeCmd` of R66, total on all 2^32 words. -/
def decode (w : Word) : Except Illegal Instr := (CmdWord.ofWord w).decode

/-- The OP field of a command (R64). -/
def Instr.op : Instr → BitVec 3
  | .nop => 0#3
  | .enc => 1#3
  | .encu => 2#3
  | .dec => 3#3
  | .fmt => 4#3
  | .prs => 5#3

/-- The command word of a command (R60, R64): RSV is 0. -/
def encode (i : Instr) : Word := CmdWord.toWord ⟨0#29, i.op⟩

/-- The command word the host writes to CMD for an `nbits`-bit table row with bits `w`: one 32-bit value
in one write (R61), the bits above `nbits` 0 (log entry 9). -/
def tableWord (nbits w : Nat) : Word := BitVec.ofNat 32 (w % 2 ^ nbits)

/-- The instruction the decoder reads from an instruction whose bits are `w`. Every command word is exactly
32 bits (R61), so a longer one is no command (log entry 9). -/
def decodeTableWord (nbits w : Nat) : Option Instr :=
  if nbits ≤ 32 then
    match decode (tableWord nbits w) with
    | .ok i => some i
    | .error _ => none
  else none

end Sys2Proof
end

