-- ==== Sys2Proof/Machine/State.lean ====
section
/-! DEFINITION. The state of ECODEC32 (spec/10_state.md R23, R35), the host port beside it
(spec/20_memory.md R40 to R47), the state after reset (spec/70_reset_and_hazards.md R170), and the reasons a
step can stop. -/

namespace Sys2Proof.Machine

/-- Why the last PRS failed (R28, R35). The codes 5 to 7 are never produced and have no constructor
(R29, 93 U6, log entry 13). -/
inductive Cause where
  /-- No failure. -/
  | none
  /-- TLEN above 16. -/
  | length
  /-- The number of segments is not 3. -/
  | segmentCount
  /-- A segment is empty or holds a byte that is no hex digit. -/
  | notHex
  /-- A segment's value does not fit its field. -/
  | fieldRange
deriving DecidableEq, Repr

/-- The width of one host access. R41 names these four; only 32 bits is supported (log entry 6). -/
inductive Width where
  | w8
  | w16
  | w32
  | w64
deriving DecidableEq, Repr

/-- One host access as the block sees it: kind, width, the 6 offset bits (R40), and for a write its data
(R11, R147). The data of a write that is not 32 bits wide has no effect (R42, log entry 6). -/
inductive Access where
  /-- `HostRead(off)`. -/
  | read (width : Width) (off : BitVec 6)
  /-- `HostWrite(off, data)`. -/
  | write (width : Width) (off : BitVec 6) (data : Word)
deriving DecidableEq, Repr

/-- The response of a host access (R11). -/
inductive Resp where
  | okay
  | busError
deriving DecidableEq, Repr

/-- What the block answers to one access: the response and the read data (0 for a write), as `hostStep` of
R147 returns them, kept with the access they answer (log entry 2). -/
structure Reply where
  access : Access
  resp   : Resp
  data   : Word
deriving DecidableEq, Repr

/-- What can arrive at the host port: a host access (R47), or the platform's reset (R170, log entry 4). -/
inductive Event where
  | access (a : Access)
  | reset
deriving DecidableEq, Repr

/-- The state. The first nine fields are the record of R35, and nothing else is state of the block. `port` and
`replies` are the MODEL's own: the host's pending events and the responses it has been given
(log entries 1 and 2). -/
@[ext]
structure State where
  /-- K, the packed code (R23, R24). -/
  k : Word
  /-- FS, the service field register (R25). -/
  fs : Word
  /-- FC, the category field register (R25). -/
  fc : Word
  /-- FU, the subcode field register (R25). -/
  fu : Word
  /-- TLEN, the length of the string in T (R26). -/
  tlen : BitVec 5
  /-- The string buffer T[0] to T[15] (R27). -/
  t : Vector Byte 16
  /-- STATUS.ERR (R28). -/
  err : Bool
  /-- STATUS.ILL (R28). -/
  ill : Bool
  /-- STATUS.CAUSE (R28). -/
  cause : Cause
  /-- The events waiting at the host port, oldest first. -/
  port : List Event
  /-- The replies given so far, oldest first. -/
  replies : List Reply
deriving DecidableEq, Repr

/-- Why a step stops with a fault. It has no constructor: the block "has no fault, stuck or refusal outcome"
(spec/42_control.md R147) and takes no trap (spec/60_exceptions.md R156). Safe: nothing raises it
(log entry 8). -/
inductive Fault where
deriving DecidableEq, Repr

/-- Why a step refuses. -/
inductive Refusal where
  /-- An instruction that has no meaning in the model yet. Raised only by an arm of `exec` that rejects its
  instruction by name; no arm does. Safe: the model stops where the hardware goes on. -/
  | notModelled (mnemonic : String)
deriving DecidableEq, Repr

/-- The state after reset: every stored register is zero (R23, R170), nothing waits at the port and no
reply has been given (DESIGN CHOICE, log entries 1 and 2). -/
def State.reset : State where
  k := 0#32
  fs := 0#32
  fc := 0#32
  fu := 0#32
  tlen := 0#5
  t := Vector.replicate 16 0#8
  err := false
  ill := false
  cause := .none
  port := []
  replies := []

end Sys2Proof.Machine
end

