-- ==== Sys2Proof/Machine/Flags.lean ====
section
/-! DEFINITION. STATUS: the encoding of its fields, its value as the host reads it, and the one operation that
writes it (spec/10_state.md R28, R31). -/

namespace Sys2Proof.Machine

/-- The encoding of CAUSE in STATUS[6:4] (R28, R35). -/
def Cause.code : Cause → BitVec 3
  | .none => 0#3
  | .length => 1#3
  | .segmentCount => 2#3
  | .notHex => 3#3
  | .fieldRange => 4#3

/-- STATUS as the host reads it: `zext_32(CAUSE ++ 0b00 ++ ILL ++ ERR)` (R28, R147). -/
def State.status (s : State) : Word :=
  (s.cause.code ++ 0b00#2 ++ BitVec.ofBool s.ill ++ BitVec.ofBool s.err).setWidth 32

/-- Every command writes all of STATUS, and no condition is sticky (R31). -/
def State.setStatus (err ill : Bool) (c : Cause) (s : State) : State :=
  { s with err := err, ill := ill, cause := c }

/-- `STATUS <- 0`: what NOP, ENC, ENCU, DEC, FMT and a successful PRS write (R31). -/
def State.clearStatus (s : State) : State := s.setStatus false false .none

end Sys2Proof.Machine
end

