-- ==== Sys2Proof/Machine/Operands.lean ====
section
/-! DEFINITION. The implicit operands of the commands (spec/30_encoding.md R62, R63): the bit-fields of a code
(spec/10_state.md R24), the bytes of a word of T (spec/20_memory.md R46), and the string in T (R27). -/

namespace Sys2Proof.Machine

/-- The service field of a code, `k[31:20]` (R24). -/
def serviceField (k : Word) : BitVec 12 := k.extractLsb' 20 12

/-- The category field of a code, `k[19:12]` (R24). -/
def categoryField (k : Word) : BitVec 8 := k.extractLsb' 12 8

/-- The subcode field of a code, `k[11:0]` (R24). -/
def subcodeField (k : Word) : BitVec 12 := k.extractLsb' 0 12

/-- Byte `i` of a word, `v[8i+7:8i]` (R46). -/
def byteOf (v : Word) (i : Nat) : Byte := v.extractLsb' (8 * i) 8

/-- The word Tj of the buffer: `T[4j+3] ++ T[4j+2] ++ T[4j+1] ++ T[4j]`, little-endian (R46). -/
def bufWord (t : Vector Byte 16) (j : Fin 4) : Word :=
  t[4 * j.val + 3] ++ t[4 * j.val + 2] ++ t[4 * j.val + 1] ++ t[4 * j.val]

/-- The buffer after `T[4j+i] <- v[8i+7:8i]` for i = 0 to 3 (R46). -/
def setBufWord (t : Vector Byte 16) (j : Fin 4) (v : Word) : Vector Byte 16 :=
  Vector.ofFn fun n => if n.val / 4 = j.val then byteOf v (n.val % 4) else t[n]

/-- The buffer that holds the bytes `f` from T[0] on, and 0x00 after them (R125). -/
def bufOfBytes (f : List Byte) : Vector Byte 16 := Vector.ofFn fun n => f.getD n.val 0x00#8

/-- The first `n` bytes of the buffer, `[T[0], ..., T[n-1]]` (R27, R118). -/
def bufPrefix (t : Vector Byte 16) (n : Nat) : List Byte := t.toList.take n

/-- The string TLEN names in T (R27). -/
def State.text (s : State) : List Byte := bufPrefix s.t s.tlen.toNat

end Sys2Proof.Machine
end

