-- ==== Sys2Proof/Machine/Ops.lean ====
section
/-! DEFINITION. The named operations on the state that commands and the host port share: writing the result
registers, and recording a condition. The block takes no trap and returns from none (spec/60_exceptions.md
R156, R157): recording a condition in STATUS is all that "taking an exception" is here. -/

namespace Sys2Proof.Machine

/-- `K <- v`. -/
def State.writeK (v : Word) (s : State) : State := { s with k := v }

/-- `FS <- v`. -/
def State.writeFs (v : Word) (s : State) : State := { s with fs := v }

/-- `FC <- v`. -/
def State.writeFc (v : Word) (s : State) : State := { s with fc := v }

/-- `FU <- v`. -/
def State.writeFu (v : Word) (s : State) : State := { s with fu := v }

/-- `TLEN <- v[4:0]`; the bits 31:5 are discarded (R26). -/
def State.writeTlen (v : Word) (s : State) : State := { s with tlen := v.setWidth 5 }

/-- T as a whole (R27). -/
def State.writeT (t : Vector Byte 16) (s : State) : State := { s with t := t }

/-- `fail(c)` (R11, R151): `STATUS <- {ERR = 1, ILL = 0, CAUSE = c}` and nothing else. The condition
MalformedErrorCode of R150. -/
def State.fail (c : Cause) (s : State) : State := s.setStatus true false c

/-- `STATUS <- {ERR = 0, ILL = 1, CAUSE = NONE}` and nothing else: the condition IllegalCommand
(R143, R152). -/
def State.signalIllegal (s : State) : State := s.setStatus false true .none

/-- Every stored register to zero (R170). What waits at the port, and what has been answered, is the host's
and stays (log entry 4). -/
def State.resetRegisters (s : State) : State :=
  { State.reset with port := s.port, replies := s.replies }

/-- Give a reply: the response and read data of the access just served (R147, log entry 2). -/
def State.answer (a : Access) (r : Resp) (d : Word) (s : State) : State :=
  { s with replies := s.replies ++ [⟨a, r, d⟩] }

/-- The host issues accesses to the port, in order: they wait after what waits there already (R47). -/
def State.enqueue (as : List Access) (s : State) : State :=
  { s with port := s.port ++ as.map Event.access }

/-- Apply `f` to the next state of an outcome; a fault or a refusal stays as it is. -/
def onNext (f : State → State) :
    Host.Outcome State Fault Refusal → Host.Outcome State Fault Refusal
  | .next s => .next (f s)
  | .fault r => .fault r
  | .refused r => .refused r

end Sys2Proof.Machine
end

