-- ==== Sys2Proof/Machine/Control.lean ====
section
/-! DEFINITION. The command that belongs to neither group: NOP (spec/42_control.md R142). -/

namespace Sys2Proof.Machine

/-- NOP: `STATUS <- 0`, its only effect (R142). -/
def execNop (s : State) : Host.Outcome State Fault Refusal := .next s.clearStatus

end Sys2Proof.Machine
end

