-- ==== Sys2Proof/Machine/Pack.lean ====
section
/-! DEFINITION. The group PACK: the core functions PackMasked, PackUnchecked and Unpack and the commands ENC,
ENCU and DEC (spec/40_pack_unpack.md). -/

namespace Sys2Proof.Machine

/-- `PackMasked` (R80): each input is cut to its field width, `s[11:0] ++ c[7:0] ++ u[11:0]`. -/
def packMasked (s c u : Word) : Word :=
  s.extractLsb' 0 12 ++ c.extractLsb' 0 8 ++ u.extractLsb' 0 12

/-- `PackUnchecked` (R81): `(s << 20) | (c << 12) | u` with 32-bit shifts. -/
def packUnchecked (s c u : Word) : Word := (s <<< 20) ||| (c <<< 12) ||| u

/-- The three values `Unpack` returns (R83). -/
structure Fields where
  service  : Word
  category : Word
  subcode  : Word
deriving DecidableEq, Repr

/-- `Unpack` (R83): the three fields, each zero-extended to 32 bits. -/
def unpack (k : Word) : Fields where
  service := (serviceField k).setWidth 32
  category := (categoryField k).setWidth 32
  subcode := (subcodeField k).setWidth 32

/-- ENC: `K <- PackMasked(FS, FC, FU)`, `STATUS <- 0` (R90). -/
def execEnc (s : State) : Host.Outcome State Fault Refusal :=
  .next ((s.writeK (packMasked s.fs s.fc s.fu)).clearStatus)

/-- ENCU: `K <- PackUnchecked(FS, FC, FU)`, `STATUS <- 0`, for every input (R95, D5). -/
def execEncu (s : State) : Host.Outcome State Fault Refusal :=
  .next ((s.writeK (packUnchecked s.fs s.fc s.fu)).clearStatus)

/-- DEC: `(FS, FC, FU) <- Unpack(K)`, `STATUS <- 0` (R100). -/
def execDec (s : State) : Host.Outcome State Fault Refusal :=
  let f := unpack s.k
  .next ((((s.writeFs f.service).writeFc f.category).writeFu f.subcode).clearStatus)

end Sys2Proof.Machine
end

