-- ==== Sys2Proof/Config.lean ====
section
/-! DEFINITION. What an implementation of ECODEC32 fixes: the parameters of spec/00_scope.md R6 and R7
that the model's definitions name, and the open parameter ECC_BASE. -/

namespace Sys2Proof.Config

/-- Which 64-byte window of the host's address space the block occupies. OPEN (R7, 93 U12): a constant
with no body, so that no statement can rest on where the window lies (log entry 5). -/
opaque windowIndex : Nat

/-- `ECC_BASE`, the host address of the register window, a multiple of 64 (R7, R40). -/
def eccBase : Nat := 64 * windowIndex

/-- The size of the register window in bytes (R40). -/
def windowBytes : Nat := 64

/-- `SVC_W`: the width of the service field (R6). -/
@[simp] def svcW : Nat := 12

/-- `CAT_W`: the width of the category field (R6). -/
@[simp] def catW : Nat := 8

/-- `SUB_W`: the width of the subcode field (R6). -/
@[simp] def subW : Nat := 12

/-- `TEXT_LEN`: the length of the text form, 3 + 1 + 2 + 1 + 3 (R6). -/
@[simp] def textLen : Nat := 10

/-- `TBUF_LEN`: the size in bytes of the string buffer T (R7). -/
@[simp] def tbufLen : Nat := 16

end Sys2Proof.Config
end

