-- ==== Sys2Proof/Machine/Text.lean ====
section
/-! DEFINITION. The group STR: the core functions Format and Parse and the commands FMT and PRS
(spec/41_string_codec.md). -/

namespace Sys2Proof.Machine

/-- The separator `.` (R110). -/
def dot : Byte := 0x2E#8

/-- `HexDigit` (R111): a 4-bit value as an upper-case hex digit. -/
def hexDigit (n : BitVec 4) : Byte :=
  if n < 10#4 then 0x30#8 + n.setWidth 8 else 0x41#8 + (n.setWidth 8 - 10#8)

/-- `HexGroup` (R112): a field of `4·d` bits as exactly `d` digits, most significant first. -/
def hexGroup (d : Nat) (v : BitVec (4 * d)) : List Byte :=
  (List.range d).map fun i => hexDigit (v.extractLsb' (4 * (d - 1 - i)) 4)

/-- `Format` (R113): service as 3 digits, category as 2, subcode as 3, joined by separators. -/
def format (k : Word) : List Byte :=
  hexGroup 3 (serviceField k) ++ [dot] ++ hexGroup 2 (categoryField k) ++ [dot] ++
    hexGroup 3 (subcodeField k)

/-- `HexValue` (R115): the digit value of a byte; lower case is accepted (D10). -/
def hexValue (b : Byte) : Option Nat :=
  if 0x30#8 ≤ b ∧ b ≤ 0x39#8 then some (b.toNat - 0x30)
  else if 0x41#8 ≤ b ∧ b ≤ 0x46#8 then some (b.toNat - 0x41 + 10)
  else if 0x61#8 ≤ b ∧ b ≤ 0x66#8 then some (b.toNat - 0x61 + 10)
  else none

/-- `Split` (R116): the segments between separators, empty ones included. -/
def split : List Byte → List (List Byte)
  | [] => [[]]
  | b :: bs =>
    if b = dot then [] :: split bs
    else match split bs with
      | g :: gs => (b :: g) :: gs
      | [] => [[b]]

/-- The value of a base-16 numeral, the sum of `d[j] * 16^(len-1-j)`, exact and unbounded (R117). -/
def numeral : List Nat → Nat
  | [] => 0
  | d :: ds => d * 16 ^ ds.length + numeral ds

/-- `SegValue` (R117): none for an empty segment or one with a byte that is no hex digit. -/
def segValue (g : List Byte) : Option Nat :=
  if g = [] then none else (g.mapM hexValue).map numeral

/-- One round of Parse's loop (R118): NOT_HEX before FIELD_RANGE (R155). -/
def fieldValue (width : Nat) (g : List Byte) : Except Cause Nat :=
  match segValue g with
  | none => .error .notHex
  | some v => if v ≥ 2 ^ width then .error .fieldRange else .ok v

/-- The loop of Parse over three segments, left to right (R118, R155). -/
def parseFields (g₀ g₁ g₂ : List Byte) : Except Cause Word :=
  match fieldValue Config.svcW g₀ with
  | .error c => .error c
  | .ok v₀ =>
    match fieldValue Config.catW g₁ with
    | .error c => .error c
    | .ok v₁ =>
      match fieldValue Config.subW g₂ with
      | .error c => .error c
      | .ok v₂ =>
        .ok (packMasked (BitVec.ofNat 32 v₀) (BitVec.ofNat 32 v₁) (BitVec.ofNat 32 v₂))

/-- `Parse` (R118): LENGTH before SEGMENT_COUNT before the segments (R121, R155). -/
def parse (t : Vector Byte 16) (n : Nat) : Except Cause Word :=
  if n > Config.tbufLen then .error .length
  else match split (bufPrefix t n) with
    | [g₀, g₁, g₂] => parseFields g₀ g₁ g₂
    | _ => .error .segmentCount

/-- FMT: `T[0..9] <- Format(K)`, `T[10..15] <- 0x00`, `TLEN <- 10`, `STATUS <- 0` (R125). -/
def execFmt (s : State) : Host.Outcome State Fault Refusal :=
  .next (((s.writeT (bufOfBytes (format s.k))).writeTlen (BitVec.ofNat 32 Config.textLen)).clearStatus)

/-- PRS: on success `K <- k`, `STATUS <- 0`; on failure `fail(c)`, K unchanged (R127). -/
def execPrs (s : State) : Host.Outcome State Fault Refusal :=
  match parse s.t s.tlen.toNat with
  | .ok k => .next ((s.writeK k).clearStatus)
  | .error c => .next (s.fail c)

end Sys2Proof.Machine
end

