-- ==== Sys2Proof/Machine/Dispatch.lean ====
section
/-! DEFINITION. The dispatch of spec/42_control.md R140: one arm per command. -/

namespace Sys2Proof.Machine

def exec (i : Instr) (s : State) : Host.Outcome State Fault Refusal :=
  match i with
  | .nop => Sys2Proof.Machine.execNop s
  | .enc => Sys2Proof.Machine.execEnc s
  | .encu => Sys2Proof.Machine.execEncu s
  | .dec => Sys2Proof.Machine.execDec s
  | .fmt => Sys2Proof.Machine.execFmt s
  | .prs => Sys2Proof.Machine.execPrs s

end Sys2Proof.Machine
end

