-- ==== Sys2Proof/Machine/Window.lean ====
section
/-! DEFINITION. The register window: its address map, legal accesses, reads, and the writes that run no command
(spec/10_state.md R23, spec/20_memory.md R41 to R46). -/

namespace Sys2Proof.Machine

/-- The registers of the window (R23). -/
inductive Reg where
  | cmd
  | status
  | k
  | fs
  | fc
  | fu
  | tlen
  /-- The words T0 to T3 of the string buffer. -/
  | t (j : Fin 4)
deriving DecidableEq, Repr

/-- The byte offset of a register in the window (R23). -/
def Reg.offset : Reg → BitVec 6
  | .cmd => 0x00#6
  | .status => 0x04#6
  | .k => 0x08#6
  | .fs => 0x0C#6
  | .fc => 0x10#6
  | .fu => 0x14#6
  | .tlen => 0x1C#6
  | .t j => BitVec.ofNat 6 (0x20 + 4 * j.val)

/-- The register at an offset (R43); `none` at 0x18, 0x30, 0x34, 0x38 and 0x3C, which hold none (R44), and
at the misaligned offsets, which no legal access reaches (R42). -/
def regAt (off : BitVec 6) : Option Reg :=
  match off.toNat with
  | 0x00 => some .cmd
  | 0x04 => some .status
  | 0x08 => some .k
  | 0x0C => some .fs
  | 0x10 => some .fc
  | 0x14 => some .fu
  | 0x1C => some .tlen
  | 0x20 => some (.t 0)
  | 0x24 => some (.t 1)
  | 0x28 => some (.t 2)
  | 0x2C => some (.t 3)
  | _ => none

/-- The width of an access. -/
def Access.width : Access → Width
  | .read w _ => w
  | .write w _ _ => w

/-- The offset of an access. -/
def Access.off : Access → BitVec 6
  | .read _ o => o
  | .write _ o _ => o

/-- 32 bits wide, at an offset that is a multiple of 4 (R42). -/
def legalAt (w : Width) (off : BitVec 6) : Bool := decide (w = .w32) && decide (off.toNat % 4 = 0)

/-- An access is legal only if it is 32 bits wide and aligned (R42). -/
def Access.legal : Access → Bool
  | .read w off => legalAt w off
  | .write w off _ => legalAt w off

/-- The value a legal read returns (R43, R44, R147). CMD stores nothing and reads 0 (R30); the narrow
registers read zero-extended (R26, R28). -/
def readWindow (off : BitVec 6) (s : State) : Word :=
  match regAt off with
  | some .cmd => 0#32
  | some .status => s.status
  | some .k => s.k
  | some .fs => s.fs
  | some .fc => s.fc
  | some .fu => s.fu
  | some .tlen => s.tlen.setWidth 32
  | some (.t j) => bufWord s.t j
  | none => 0#32

/-- The state after a legal write that runs no command (R45, R147): it stores the value, and a write to
STATUS or to an offset with no register is ignored (R28, R44). -/
def writeWindow (off : BitVec 6) (v : Word) (s : State) : State :=
  match regAt off with
  | some .cmd => s
  | some .status => s
  | some .k => s.writeK v
  | some .fs => s.writeFs v
  | some .fc => s.writeFc v
  | some .fu => s.writeFu v
  | some .tlen => s.writeTlen v
  | some (.t j) => s.writeT (setBufWord s.t j v)
  | none => s

end Sys2Proof.Machine
end

