-- ==== Sys2Proof/Machine/HostStep.lean ====
section
/-! DEFINITION. Running a command word, and serving one host access or reset (spec/42_control.md R140, R143,
R147; spec/70_reset_and_hazards.md R170). -/

namespace Sys2Proof.Machine

/-- `execCmd` of R140: the command the word encodes, or IllegalCommand (R143). -/
def execCmd (w : Word) (s : State) : Host.Outcome State Fault Refusal :=
  match decode w with
  | .ok i => exec i s
  | .error _ => .next s.signalIllegal

/-- `hostStep` of R147. The response and the read data are recorded as a reply. An illegal access has no effect
and gets BUS_ERROR with read data 0 (R42). -/
def hostStep (a : Access) (s : State) : Host.Outcome State Fault Refusal :=
  if a.legal then
    match a with
    | .read _ off => .next (s.answer a .okay (readWindow off s))
    | .write _ off v =>
      match regAt off with
      | some .cmd => onNext (State.answer a .okay 0#32) (execCmd v s)
      | _ => .next ((writeWindow off v s).answer a .okay 0#32)
  else .next (s.answer a .busError 0#32)

/-- Serve one event of the port: a host access (R147), or the platform's reset (R170, log entry 4). -/
def serve (e : Event) (s : State) : Host.Outcome State Fault Refusal :=
  match e with
  | .access a => hostStep a s
  | .reset => .next s.resetRegisters

/-- The write that issues a command word (R30, R45). -/
def cmdWrite (w : Word) : Access := .write .w32 0x00#6 w

end Sys2Proof.Machine
end

