-- ==== Sys2Proof/Machine/Step.lean ====
section
/-! DEFINITION. One step of the machine: it serves the oldest event waiting at the host port, and each event
is served whole before the next (spec/20_memory.md R47, R48). -/

namespace Sys2Proof.Machine

/-- One step. With nothing waiting the block does nothing: it takes no step of its own between host accesses
(R20), and all registers keep their values (spec/60_exceptions.md R162; log entry 3). -/
def step (s : State) : Host.Outcome State Fault Refusal :=
  match s.port with
  | [] => .next s
  | e :: es => serve e { s with port := es }

/-- `s` with the host's write of this command word to CMD as the next access the block serves: the block
fetches nothing, and a command word reaches it only as the data of that write (R53; log entries 1 and 9). -/
def State.withFetchWord (s : State) (nbits w : Nat) : State :=
  { s with port := .access (cmdWrite (tableWord nbits w)) :: s.port }

end Sys2Proof.Machine
end

