-- ==== Sys2Proof/Machine/Asm.lean ====
section
/-! DEFINITION. The assembler of host programs: lines of text to lists of host accesses (spec/30_encoding.md R67
to R70). The spec gives the grammar of a line over its tokens; how characters form tokens is the model's choice
(DESIGN CHOICE, log entry 12). -/

namespace Sys2Proof.Machine.Asm

/-- A token of a line. -/
inductive Token where
  /-- A mnemonic, label or number. -/
  | word (cs : List Char)
  /-- A string literal, by its bytes (R69). -/
  | str (bytes : List Byte)
  | comma
  | colon
deriving DecidableEq, Repr

/-- A statement of R67: a raw access, a raw command word, a command mnemonic (R68) or a pseudo-instruction
(R69). -/
inductive Stmt where
  | wr (off imm : Nat)
  | rd (off : Nat)
  | cmd (imm : Nat)
  | mnemonic (i : Instr)
  | ldk (imm : Nat)
  | ldf (s c u : Nat)
  | ldt (bytes : List Byte)
  | rdk
  | rdf
  | rdt
  | rds
deriving DecidableEq, Repr

/-- Where the lexer stands in a line: between or inside words, or inside a string literal. The characters
already taken are held last first. -/
inductive LexMode where
  | plain (taken : List Char)
  | quoted (taken : List Char)
deriving DecidableEq, Repr

/-- `off`: a multiple of 4 in 0x00..0x3C (R67). -/
def offOk (off : Nat) : Bool := decide (off ≤ 0x3C) && decide (off % 4 = 0)

/-- `imm`: a number in 0..2^32-1 (R67). -/
def immOk (imm : Nat) : Bool := decide (imm < 2 ^ 32)

/-- What the assembler accepts; the rest it rejects (R67, R69). -/
def Stmt.wf : Stmt → Bool
  | .wr off imm => offOk off && immOk imm
  | .rd off => offOk off
  | .cmd imm => immOk imm
  | .mnemonic _ => true
  | .ldk imm => immOk imm
  | .ldf s c u => immOk s && immOk c && immOk u
  | .ldt bytes => decide (bytes.length ≤ 16)
  | .rdk => true
  | .rdf => true
  | .rdt => true
  | .rds => true

/-- `wr off, imm`: one legal 32-bit host write (R67). -/
def wrAccess (off imm : Nat) : Access := .write .w32 (BitVec.ofNat 6 off) (BitVec.ofNat 32 imm)

/-- `rd off`: one legal 32-bit host read (R67). -/
def rdAccess (off : Nat) : Access := .read .w32 (BitVec.ofNat 6 off)

/-- The word `Wj` of `ldt` (R69): bytes 4j to 4j+3 of the literal, little-endian, 0x00 past its end. -/
def literalWord (bytes : List Byte) (j : Nat) : Word :=
  bytes.getD (4 * j + 3) 0#8 ++ bytes.getD (4 * j + 2) 0#8 ++ bytes.getD (4 * j + 1) 0#8 ++
    bytes.getD (4 * j) 0#8

/-- The expansion of a statement into host accesses, in order (R67 to R70). -/
def Stmt.expand : Stmt → List Access
  | .wr off imm => [wrAccess off imm]
  | .rd off => [rdAccess off]
  | .cmd imm => [wrAccess 0x00 imm]
  | .mnemonic i => [cmdWrite (encode i)]
  | .ldk imm => [wrAccess 0x08 imm]
  | .ldf s c u => [wrAccess 0x0C s, wrAccess 0x10 c, wrAccess 0x14 u]
  | .ldt bytes =>
    [.write .w32 0x20#6 (literalWord bytes 0), .write .w32 0x24#6 (literalWord bytes 1),
      .write .w32 0x28#6 (literalWord bytes 2), .write .w32 0x2C#6 (literalWord bytes 3),
      wrAccess 0x1C bytes.length]
  | .rdk => [rdAccess 0x08]
  | .rdf => [rdAccess 0x0C, rdAccess 0x10, rdAccess 0x14]
  | .rdt => [rdAccess 0x1C, rdAccess 0x20, rdAccess 0x24, rdAccess 0x28, rdAccess 0x2C]
  | .rds => [rdAccess 0x04]

/-- The accesses of a statement, or none where the assembler rejects it. -/
def Stmt.assemble (st : Stmt) : Option (List Access) := if st.wf then some st.expand else none

/-- The value of a hex digit character, in either case. -/
def hexDigitValue (c : Char) : Option Nat :=
  if '0' ≤ c ∧ c ≤ '9' then some (c.toNat - 48)
  else if 'A' ≤ c ∧ c ≤ 'F' then some (c.toNat - 55)
  else if 'a' ≤ c ∧ c ≤ 'f' then some (c.toNat - 87)
  else none

/-- The value of a decimal digit character. -/
def decDigitValue (c : Char) : Option Nat :=
  if '0' ≤ c ∧ c ≤ '9' then some (c.toNat - 48) else none

/-- The value of a numeral in a base, most significant digit first; at least one digit. -/
def digitsValue (base : Nat) (digit : Char → Option Nat) (cs : List Char) : Option Nat :=
  if cs = [] then none else (cs.mapM digit).map (List.foldl (fun acc d => base * acc + d) 0)

/-- A number, decimal or `0x`-prefixed hexadecimal (R67). -/
def number : List Char → Option Nat
  | '0' :: 'x' :: ds => digitsValue 16 hexDigitValue ds
  | ds => digitsValue 10 decDigitValue ds

/-- The bytes of a string literal between its quotes: `\xHH` stands for the byte 0xHH, any other ASCII
character for its own byte (R69); a backslash that begins no `\xHH` and a character outside ASCII are
rejected (log entry 12). -/
def literalBytes : List Char → Option (List Byte)
  | [] => some []
  | '\\' :: 'x' :: h :: l :: cs =>
    match hexDigitValue h, hexDigitValue l, literalBytes cs with
    | some hv, some lv, some bs => some (BitVec.ofNat 8 (16 * hv + lv) :: bs)
    | _, _, _ => none
  | c :: cs =>
    if c = '\\' ∨ 128 ≤ c.toNat then none
    else (literalBytes cs).map (BitVec.ofNat 8 c.toNat :: ·)

/-- Put the word just read, if there is one, before the tokens that follow it. -/
def flush (taken : List Char) (ts : List Token) : List Token :=
  if taken = [] then ts else .word taken.reverse :: ts

/-- The tokens of a line. A `;` outside a string literal begins the comment (R67); white space separates words
(log entry 12). An unclosed string literal is rejected. -/
def lex : LexMode → List Char → Option (List Token)
  | .plain taken, [] => some (flush taken [])
  | .quoted _, [] => none
  | .plain taken, c :: cs =>
    if c = ';' then some (flush taken [])
    else if c = ',' then (lex (.plain []) cs).map fun ts => flush taken (.comma :: ts)
    else if c = ':' then (lex (.plain []) cs).map fun ts => flush taken (.colon :: ts)
    else if c = '"' then (lex (.quoted []) cs).map (flush taken)
    else if c.isWhitespace then (lex (.plain []) cs).map (flush taken)
    else lex (.plain (c :: taken)) cs
  | .quoted taken, c :: cs =>
    if c = '"' then
      match literalBytes taken.reverse, lex (.plain []) cs with
      | some bytes, some ts => some (.str bytes :: ts)
      | _, _ => none
    else lex (.quoted (c :: taken)) cs

/-- The command mnemonics (R68), in lower case. -/
def mnemonics : List (List Char × Instr) :=
  [("nop".toList, .nop), ("enc".toList, .enc), ("encu".toList, .encu), ("dec".toList, .dec),
    ("fmt".toList, .fmt), ("prs".toList, .prs)]

/-- A statement with no operand, by its lower-case name (R68, R69). -/
def bareStmt (name : List Char) : Option Stmt :=
  match mnemonics.lookup name with
  | some i => some (.mnemonic i)
  | none =>
    if name = "rdk".toList then some .rdk
    else if name = "rdf".toList then some .rdf
    else if name = "rdt".toList then some .rdt
    else if name = "rds".toList then some .rds
    else none

/-- A statement with one number. -/
def unaryStmt (name : List Char) (n : Nat) : Option Stmt :=
  if name = "rd".toList then some (.rd n)
  else if name = ".cmd".toList then some (.cmd n)
  else if name = "ldk".toList then some (.ldk n)
  else none

/-- A statement from its tokens (R67). Names are case-insensitive. -/
def parseStmt : List Token → Option Stmt
  | [.word n] => bareStmt (n.map Char.toLower)
  | [.word n, .word a] => (number a).bind (unaryStmt (n.map Char.toLower))
  | [.word n, .str bytes] => if n.map Char.toLower = "ldt".toList then some (.ldt bytes) else none
  | [.word n, .word a, .comma, .word b] =>
    if n.map Char.toLower = "wr".toList then
      match number a, number b with
      | some off, some imm => some (.wr off imm)
      | _, _ => none
    else none
  | [.word n, .word a, .comma, .word b, .comma, .word d] =>
    if n.map Char.toLower = "ldf".toList then
      match number a, number b, number d with
      | some s, some c, some u => some (.ldf s c u)
      | _, _, _ => none
    else none
  | _ => none

/-- The accesses of an optional statement: a line may have none (R67). -/
def assembleStmt (ts : List Token) : Option (List Access) :=
  if ts = [] then some [] else (parseStmt ts).bind Stmt.assemble

/-- The accesses of a line's tokens: an optional label, which has no effect, and an optional statement
(R67). -/
def assembleTokens : List Token → Option (List Access)
  | .word _ :: .colon :: ts => assembleStmt ts
  | ts => assembleStmt ts

/-- The accesses of one line of text, or none where the assembler rejects it. -/
def assembleLine (line : List Char) : Option (List Access) :=
  (lex (.plain []) line).bind assembleTokens

/-- The encoding of a program: its list of host accesses, in order (R70). -/
def assemble (lines : List (List Char)) : Option (List Access) :=
  (lines.mapM assembleLine).map List.flatten

end Sys2Proof.Machine.Asm
end

