-- ==== Sys2Proof/Machine/Bus.lean ====
section
/-! DEFINITION. The bus side of the host port: accesses by host address, routed to the window at ECC_BASE
(spec/20_memory.md R40, spec/42_control.md R145). -/

namespace Sys2Proof.Machine

/-- One access as the host issues it, by host address (R147's `acc`). The host's address width is the host's
(R40), so an address is a natural number. -/
inductive BusAccess where
  | read (width : Width) (addr : Nat)
  | write (width : Width) (addr : Nat) (data : Word)
deriving DecidableEq, Repr

/-- The host address of an access. -/
def BusAccess.addr : BusAccess → Nat
  | .read _ a => a
  | .write _ a _ => a

/-- The address lies in the window at `base`: `base` to `base + 0x3F` (R40). -/
def inWindow (base addr : Nat) : Bool := decide (base ≤ addr) && decide (addr < base + Config.windowBytes)

/-- `off = addr - ECC_BASE`, the 6 bits the block sees (R40). -/
def offsetOf (base addr : Nat) : BitVec 6 := BitVec.ofNat 6 (addr - base)

/-- The access as the block at `base` sees it, or none where the address is outside the window and the access
does not reach the block (R40, log entry 14). -/
def BusAccess.route (base : Nat) (b : BusAccess) : Option Access :=
  if inWindow base b.addr then
    match b with
    | .read w a => some (.read w (offsetOf base a))
    | .write w a v => some (.write w (offsetOf base a) v)
  else none

/-- The host issues accesses, in order, to the block at `base`: those that reach it wait at its port after what
waits there already (R47). -/
def State.issue (base : Nat) (bs : List BusAccess) (s : State) : State :=
  s.enqueue (bs.filterMap (BusAccess.route base))

/-- The same at this implementation's ECC_BASE (R7). -/
def State.issueHere (bs : List BusAccess) (s : State) : State := s.issue Config.eccBase bs

/-- What the host has read so far, in order: the data of the replies to its reads (R67's output list). -/
def State.outputs (s : State) : List Word :=
  s.replies.filterMap fun r =>
    match r.access with
    | .read _ _ => some r.data
    | .write _ _ _ => none

end Sys2Proof.Machine
end

