-- ==== Sys2Proof/Safety.lean ====
section
/-! DEFINITION. The terms the statements use: agreement of the registers, the invariants of the state, replies
as the spec allows them, a run without a bus error, and canonical text. -/

namespace Sys2Proof.Machine

/-- The block's nine registers agree: the record of spec/10_state.md R35. The port and the replies are the
host's. -/
abbrev State.SameRegisters (s s' : State) : Prop :=
  s.k = s'.k ∧ s.fs = s'.fs ∧ s.fc = s'.fc ∧ s.fu = s'.fu ∧ s.tlen = s'.tlen ∧ s.t = s'.t ∧
    s.err = s'.err ∧ s.ill = s'.ill ∧ s.cause = s'.cause

/-- The STATUS invariants of R29: ERR = 1 exactly when CAUSE is not NONE, and ILL = 1 implies ERR = 0 and
CAUSE = NONE. -/
abbrev State.StatusInv (s : State) : Prop :=
  (s.err = true ↔ s.cause ≠ .none) ∧ (s.ill = true → s.err = false ∧ s.cause = .none)

/-- The values STATUS can read as: success, ILL, and ERR with each cause (R28, R29; the table of
spec/95_test_vectors.md). -/
def statusValues : List Word := [0x00#32, 0x02#32, 0x11#32, 0x21#32, 0x31#32, 0x41#32]

/-- The read data the spec allows at an offset: CMD and offsets with no register read 0 (R30, R44), STATUS
reads one of its values (R28), TLEN reads below 32 (R26). -/
def readDataOk (off : BitVec 6) (d : Word) : Bool :=
  match regAt off with
  | some .cmd => decide (d = 0#32)
  | some .status => decide (d ∈ statusValues)
  | some .tlen => decide (d.toNat < 32)
  | none => decide (d = 0#32)
  | _ => true

/-- A reply as R42 and R147 allow it: BUS_ERROR exactly for an illegal access, read data 0 with it, and no
read data for a write. -/
def Reply.wf (r : Reply) : Bool :=
  decide (r.resp = .busError) == !r.access.legal &&
    match r.access with
    | .write _ _ _ => decide (r.data = 0#32)
    | .read _ off => if r.access.legal then readDataOk off r.data else decide (r.data = 0#32)

/-- The invariant of the machine: STATUS as R29 says, and every reply given as the spec allows it. -/
abbrev State.Inv (s : State) : Prop := s.StatusInv ∧ ∀ r ∈ s.replies, r.wf = true

/-- No access so far got BUS_ERROR: what every claim about a host program assumes
(spec/60_exceptions.md R153). -/
abbrev State.NoBusError (s : State) : Prop := ∀ r ∈ s.replies, r.resp = .okay

/-- The accesses waiting at the port, oldest first. -/
def State.waiting (s : State) : List Access :=
  s.port.filterMap fun e =>
    match e with
    | .access a => some a
    | .reset => none

/-- What a host must do (spec/70_reset_and_hazards.md R172 (b)): every access waiting at the port is 32 bits
wide and aligned. -/
abbrev State.HostAligned (s : State) : Prop := ∀ a ∈ s.waiting, a.legal = true

/-- A digit or an upper-case hex letter, {0x30..0x39, 0x41..0x46} (spec/41_string_codec.md R114). -/
def isUpperHex (b : Byte) : Bool :=
  (decide (0x30#8 ≤ b) && decide (b ≤ 0x39#8)) || (decide (0x41#8 ≤ b) && decide (b ≤ 0x46#8))

/-- Canonical text: 10 bytes of the shape `XXX.XX.XXX` with upper-case hex digits
(spec/00_scope.md, glossary). -/
def isCanonical : List Byte → Bool
  | [a, b, c, p, d, e, q, f, g, h] =>
    isUpperHex a && isUpperHex b && isUpperHex c && decide (p = dot) && isUpperHex d && isUpperHex e &&
      decide (q = dot) && isUpperHex f && isUpperHex g && isUpperHex h
  | _ => false

/-- The lower-case form of a hex letter; every other byte as it is (R115, R119). -/
def lowerHex (b : Byte) : Byte := if 0x41#8 ≤ b ∧ b ≤ 0x46#8 then b + 0x20#8 else b

end Sys2Proof.Machine
end

