-- ==== Sys2Proof/Certificates/Slice0/Obligations.lean ====
section
/-! DEFINITION. The statements for the provers. Each is about every state, or every operand, of the model; the
docstring names the rules of spec/ it formalises, or says which log entry it rests on. -/

open Sys2Proof Sys2Proof.Machine

/-! ## Encoding and dispatch -/

/-- Sample command words, written out bit by bit from the encoding of R60 and R64: RSV (29 bits), then OP. -/
def Obligations.SampleCommandWordsDecode : Prop :=
  decode 0b00000000000000000000000000000000#32 = .ok .nop ∧
  decode 0b00000000000000000000000000000010#32 = .ok .encu ∧
  decode 0b00000000000000000000000000000101#32 = .ok .prs ∧
  decode 0b00000000000000000000000000000110#32 = .error .opReserved ∧
  decode 0b00000000000000000000000000001000#32 = .error .rsvNonzero ∧
  decode 0b10000000000000000000000000000001#32 = .error .rsvNonzero

/-- R66: the decoder on every one of the 2^32 words. -/
def Obligations.DecoderIsTotalAndExact : Prop :=
  ∀ w : Word,
    (w.toNat / 8 ≠ 0 → decode w = .error .rsvNonzero) ∧
    (w.toNat = 0 → decode w = .ok .nop) ∧
    (w.toNat = 1 → decode w = .ok .enc) ∧
    (w.toNat = 2 → decode w = .ok .encu) ∧
    (w.toNat = 3 → decode w = .ok .dec) ∧
    (w.toNat = 4 → decode w = .ok .fmt) ∧
    (w.toNat = 5 → decode w = .ok .prs) ∧
    (w.toNat = 6 → decode w = .error .opReserved) ∧
    (w.toNat = 7 → decode w = .error .opReserved)

/-- Decode and encode agree, both ways: each well-formed instruction has exactly one command word, its word is
legal, and the table's word of the same number decodes to it (R64 to R66). -/
def Obligations.DecodeEncodeAgree : Prop :=
  ∀ i : Instr, i.wf = true →
    (CmdWord.ofWord (encode i)).wf = true ∧
    (∀ w : Word, decode w = .ok i ↔ w = encode i) ∧
    (∀ n : Nat, n < 2 ^ 32 → (decodeTableWord 32 n = some i ↔ n = (encode i).toNat))

/-- A step runs the decoded command (R53, R140, R147): when the next event at the port is the host's write of a
word to CMD that decodes to `i`, the step takes that event from the port, is `exec i` at that state, and adds the
reply OKAY with no read data. -/
def Obligations.StepRunsTheDecodedCommand : Prop :=
  ∀ (s : State) (es : List Event) (w : Word) (i : Instr),
    s.port = .access (.write .w32 0x00#6 w) :: es → decode w = .ok i →
      step s =
        match exec i { s with port := es } with
        | .next t => .next { t with replies := t.replies ++ [⟨.write .w32 0x00#6 w, .okay, 0#32⟩] }
        | .fault r => .fault r
        | .refused r => .refused r

/-- R143: an illegal command word sets ILL and nothing else, and its write is answered OKAY. -/
def Obligations.IllegalWordSetsIllOnly : Prop :=
  ∀ (s : State) (es : List Event) (w : Word),
    (w.toNat / 8 ≠ 0 ∨ w.toNat = 6 ∨ w.toNat = 7) →
    s.port = .access (.write .w32 0x00#6 w) :: es →
      ∃ t, step s = .next t ∧ t.status = 0x00000002#32 ∧
        t = { s with
          err := false, ill := true, cause := .none, port := es,
          replies := s.replies ++ [⟨.write .w32 0x00#6 w, .okay, 0#32⟩] }

/-! ## The commands: what each writes, and that it changes nothing else -/

/-- R142: NOP is word 0, writes STATUS = 0 and nothing else. -/
def Obligations.NopClearsStatusOnly : Prop :=
  decode 0x00000000#32 = .ok .nop ∧
  ∀ s : State, ∃ t, exec .nop s = .next t ∧ t.status = 0x00000000#32 ∧
    t = { s with err := false, ill := false, cause := .none }

/-- R80, R90: ENC is word 1 and writes K with each field register cut to its field, STATUS = 0, and nothing
else. -/
def Obligations.EncPacksMaskedFields : Prop :=
  decode 0x00000001#32 = .ok .enc ∧
  ∀ s : State, ∃ k : Word, ∃ t,
    exec .enc s = .next t ∧ t.status = 0x00000000#32 ∧
    t = { s with k := k, err := false, ill := false, cause := .none } ∧
    k = packMasked s.fs s.fc s.fu ∧
    k.toNat = s.fs.toNat % 2 ^ 12 * 2 ^ 20 + s.fc.toNat % 2 ^ 8 * 2 ^ 12 + s.fu.toNat % 2 ^ 12

/-- R81, R82, R95: ENCU is word 2 and writes K with the unmasked formula, whose fields are the OR of R82, STATUS
= 0, and nothing else. -/
def Obligations.EncuPacksUnmaskedFields : Prop :=
  decode 0x00000002#32 = .ok .encu ∧
  ∀ s : State, ∃ k : Word, ∃ t,
    exec .encu s = .next t ∧ t.status = 0x00000000#32 ∧
    t = { s with k := k, err := false, ill := false, cause := .none } ∧
    k = packUnchecked s.fs s.fc s.fu ∧
    k = (s.fs <<< 20) ||| (s.fc <<< 12) ||| s.fu ∧
    k.extractLsb' 20 12 =
      s.fs.extractLsb' 0 12 ||| s.fc.extractLsb' 8 12 ||| s.fu.extractLsb' 20 12 ∧
    k.extractLsb' 12 8 = s.fc.extractLsb' 0 8 ||| s.fu.extractLsb' 12 8 ∧
    k.extractLsb' 0 12 = s.fu.extractLsb' 0 12

/-- R83, R100: DEC is word 3 and writes the three fields of K, zero-extended, STATUS = 0, and nothing else. -/
def Obligations.DecUnpacksFields : Prop :=
  decode 0x00000003#32 = .ok .dec ∧
  ∀ s : State, ∃ a b c : Word, ∃ t,
    exec .dec s = .next t ∧ t.status = 0x00000000#32 ∧
    t = { s with fs := a, fc := b, fu := c, err := false, ill := false, cause := .none } ∧
    unpack s.k = ⟨a, b, c⟩ ∧
    a.toNat = s.k.toNat / 2 ^ 20 ∧ b.toNat = s.k.toNat / 2 ^ 12 % 2 ^ 8 ∧
    c.toNat = s.k.toNat % 2 ^ 12

/-- R113, R125: FMT is word 4 and writes the eight nibbles of K as hex digits with the separators after the third
and the fifth, six 0x00 bytes, TLEN = 10, STATUS = 0, and nothing else. -/
def Obligations.FmtWritesCanonicalText : Prop :=
  decode 0x00000004#32 = .ok .fmt ∧
  ∀ s : State, ∃ b : Vector Byte 16, ∃ t,
    exec .fmt s = .next t ∧ t.status = 0x00000000#32 ∧
    t = { s with t := b, tlen := 10#5, err := false, ill := false, cause := .none } ∧
    b.toList =
      [hexDigit (s.k.extractLsb' 28 4), hexDigit (s.k.extractLsb' 24 4), hexDigit (s.k.extractLsb' 20 4),
        0x2E#8, hexDigit (s.k.extractLsb' 16 4), hexDigit (s.k.extractLsb' 12 4), 0x2E#8,
        hexDigit (s.k.extractLsb' 8 4), hexDigit (s.k.extractLsb' 4 4), hexDigit (s.k.extractLsb' 0 4),
        0x00#8, 0x00#8, 0x00#8, 0x00#8, 0x00#8, 0x00#8] ∧
    t.text = format s.k

/-- R127 on success: where the string TLEN names in T is three groups of hex digits whose values fit their
fields, PRS completes, writes K with the packed values and STATUS = 0, and changes nothing else. -/
def Obligations.PrsWritesParsedCode : Prop :=
  decode 0x00000005#32 = .ok .prs ∧
  ∀ (s : State) (a b c : List Byte) (va vb vc : Nat),
    s.tlen.toNat ≤ 16 → s.text = a ++ [0x2E#8] ++ b ++ [0x2E#8] ++ c →
    segValue a = some va → segValue b = some vb → segValue c = some vc →
    va < 2 ^ 12 → vb < 2 ^ 8 → vc < 2 ^ 12 →
      ∃ k : Word, ∃ t, exec .prs s = .next t ∧ t.status = 0x00000000#32 ∧
        t = { s with k := k, err := false, ill := false, cause := .none } ∧
        k.toNat = va * 2 ^ 20 + vb * 2 ^ 12 + vc

/-- R127 on every state: PRS is word 5, completes, changes K and STATUS at most, and either succeeds with K the
parsed code and STATUS = 0, or leaves K as it was with ERR = 1, ILL = 0 and Parse's cause, which is not NONE. -/
def Obligations.PrsAlwaysCompletes : Prop :=
  decode 0x00000005#32 = .ok .prs ∧
  ∀ s : State, ∃ t, exec .prs s = .next t ∧
    t = { s with k := t.k, err := t.err, ill := false, cause := t.cause } ∧
    (t.err = false → t.cause = .none ∧ parse s.t s.tlen.toNat = .ok t.k) ∧
    (t.err = true → t.cause ≠ .none ∧ t.k = s.k ∧ parse s.t s.tlen.toNat = .error t.cause)

/-- R121: a TLEN above 16 fails with LENGTH, whatever T holds. -/
def Obligations.PrsLengthCause : Prop :=
  ∀ s : State, 16 < s.tlen.toNat →
    exec .prs s = .next { s with err := true, ill := false, cause := .length }

/-- R155 (2), R116: with TLEN at most 16, a string whose separators are not exactly two fails with
SEGMENT_COUNT. -/
def Obligations.PrsSegmentCountCause : Prop :=
  ∀ s : State, s.tlen.toNat ≤ 16 → s.text.count 0x2E#8 ≠ 2 →
    exec .prs s = .next { s with err := true, ill := false, cause := .segmentCount }

/-- R155 (3), R117: with three segments, the first segment that fails decides the cause, and within it NOT_HEX
comes before FIELD_RANGE. -/
def Obligations.PrsSegmentCausesInOrder : Prop :=
  ∀ (s : State) (a b c : List Byte),
    s.tlen.toNat ≤ 16 → s.text = a ++ [0x2E#8] ++ b ++ [0x2E#8] ++ c →
    0x2E#8 ∉ a → 0x2E#8 ∉ b → 0x2E#8 ∉ c →
      (segValue a = none →
        exec .prs s = .next { s with err := true, ill := false, cause := .notHex }) ∧
      (∀ va, segValue a = some va → 2 ^ 12 ≤ va →
        exec .prs s = .next { s with err := true, ill := false, cause := .fieldRange }) ∧
      (∀ va, segValue a = some va → va < 2 ^ 12 →
        (segValue b = none →
          exec .prs s = .next { s with err := true, ill := false, cause := .notHex }) ∧
        (∀ vb, segValue b = some vb → 2 ^ 8 ≤ vb →
          exec .prs s = .next { s with err := true, ill := false, cause := .fieldRange }) ∧
        (∀ vb, segValue b = some vb → vb < 2 ^ 8 →
          (segValue c = none →
            exec .prs s = .next { s with err := true, ill := false, cause := .notHex }) ∧
          (∀ vc, segValue c = some vc → 2 ^ 12 ≤ vc →
            exec .prs s = .next { s with err := true, ill := false, cause := .fieldRange })))

/-- R31: every command word, legal or not, completes and writes all of STATUS: 0 for every command but PRS, 0 or
ERR with a cause for PRS, ILL for an illegal word. Nothing of the STATUS before is left (no condition is
sticky). -/
def Obligations.EveryCommandWritesAllOfStatus : Prop :=
  ∀ (w : Word) (s : State), ∃ t, execCmd w s = .next t ∧
    (∀ i, decode w = .ok i → i ≠ .prs → t.err = false ∧ t.ill = false ∧ t.cause = .none) ∧
    (decode w = .ok .prs →
      match parse s.t s.tlen.toNat with
      | .ok _ => t.err = false ∧ t.ill = false ∧ t.cause = .none
      | .error c => t.err = true ∧ t.ill = false ∧ t.cause = c) ∧
    (∀ e, decode w = .error e → t.err = false ∧ t.ill = true ∧ t.cause = .none) ∧
    ∀ (e i : Bool) (c : Cause), execCmd w { s with err := e, ill := i, cause := c } = .next t

/-- R55: every command is idempotent. -/
def Obligations.EveryCommandIsIdempotent : Prop :=
  ∀ (w : Word) (s t : State), execCmd w s = .next t → execCmd w t = .next t

/-- R62: what a command writes depends only on what it reads. PRS reads TLEN and T[0..TLEN-1] only (R27). -/
def Obligations.CommandsReadOnlyTheirOperands : Prop :=
  ∀ (s s' : State),
    (∃ t t', exec .nop s = .next t ∧ exec .nop s' = .next t' ∧ t.status = t'.status) ∧
    (s.fs = s'.fs → s.fc = s'.fc → s.fu = s'.fu → ∀ i, i = .enc ∨ i = .encu →
      ∃ t t', exec i s = .next t ∧ exec i s' = .next t' ∧ t.k = t'.k ∧ t.status = t'.status) ∧
    (s.k = s'.k →
      ∃ t t', exec .dec s = .next t ∧ exec .dec s' = .next t' ∧
        t.fs = t'.fs ∧ t.fc = t'.fc ∧ t.fu = t'.fu ∧ t.status = t'.status) ∧
    (s.k = s'.k →
      ∃ t t', exec .fmt s = .next t ∧ exec .fmt s' = .next t' ∧
        t.t = t'.t ∧ t.tlen = t'.tlen ∧ t.status = t'.status) ∧
    (s.tlen = s'.tlen → s.text = s'.text →
      ∃ t t', exec .prs s = .next t ∧ exec .prs s' = .next t' ∧ t.status = t'.status ∧
        (t.err = false → t.k = t'.k))

/-! ## Laws of the packers -/

/-- R84: in range, both packers give the sum of the shifted fields. -/
def Obligations.PackersAgreeInRange : Prop :=
  ∀ s c u : Word, s.toNat < 2 ^ 12 → c.toNat < 2 ^ 8 → u.toNat < 2 ^ 12 →
    packMasked s c u = packUnchecked s c u ∧
    (packMasked s c u).toNat = s.toNat * 2 ^ 20 + c.toNat * 2 ^ 12 + u.toNat

/-- R85: unpack of pack gives an in-range triple back, through either packer. -/
def Obligations.UnpackOfPackInRange : Prop :=
  ∀ s c u : Word, s.toNat < 2 ^ 12 → c.toNat < 2 ^ 8 → u.toNat < 2 ^ 12 →
    unpack (packMasked s c u) = ⟨s, c, u⟩ ∧ unpack (packUnchecked s c u) = ⟨s, c, u⟩

/-- R86: through the masked packer, unpack gives every triple back modulo its field widths; the unchecked packer
has no such law; through either, a triple comes back as it was exactly when it is in range. -/
def Obligations.UnpackOfMaskedPack : Prop :=
  (∀ s c u : Word,
    (unpack (packMasked s c u)).service.toNat = s.toNat % 2 ^ 12 ∧
    (unpack (packMasked s c u)).category.toNat = c.toNat % 2 ^ 8 ∧
    (unpack (packMasked s c u)).subcode.toNat = u.toNat % 2 ^ 12) ∧
  (∃ s c u : Word, (unpack (packUnchecked s c u)).service.toNat ≠ s.toNat % 2 ^ 12) ∧
  ∀ s c u : Word,
    (unpack (packMasked s c u) = ⟨s, c, u⟩ ↔
      s.toNat < 2 ^ 12 ∧ c.toNat < 2 ^ 8 ∧ u.toNat < 2 ^ 12) ∧
    (unpack (packUnchecked s c u) = ⟨s, c, u⟩ ↔
      s.toNat < 2 ^ 12 ∧ c.toNat < 2 ^ 8 ∧ u.toNat < 2 ^ 12)

/-- R87: pack of unpack is the identity, through either packer. -/
def Obligations.PackOfUnpack : Prop :=
  ∀ k : Word,
    packMasked (unpack k).service (unpack k).category (unpack k).subcode = k ∧
    packUnchecked (unpack k).service (unpack k).category (unpack k).subcode = k

/-- R88, R124: the boundary values of the packers and of Format. -/
def Obligations.BoundaryValues : Prop :=
  packMasked 0#32 0#32 0#32 = 0x00000000#32 ∧ packUnchecked 0#32 0#32 0#32 = 0x00000000#32 ∧
  packMasked 4095#32 255#32 4095#32 = 0xFFFFFFFF#32 ∧
  packUnchecked 4095#32 255#32 4095#32 = 0xFFFFFFFF#32 ∧
  format 0x00000000#32 =
    [0x30#8, 0x30#8, 0x30#8, 0x2E#8, 0x30#8, 0x30#8, 0x2E#8, 0x30#8, 0x30#8, 0x30#8] ∧
  format 0xFFFFFFFF#32 =
    [0x46#8, 0x46#8, 0x46#8, 0x2E#8, 0x46#8, 0x46#8, 0x2E#8, 0x46#8, 0x46#8, 0x46#8]

/-! ## Laws of the string codec -/

/-- R111, R115: HexDigit as the bytes of the upper-case digits, and HexValue on every byte. -/
def Obligations.HexDigitsAndValues : Prop :=
  (∀ n : BitVec 4, (hexDigit n).toNat = if n.toNat < 10 then 0x30 + n.toNat else 0x41 + (n.toNat - 10)) ∧
  ∀ b : Byte,
    (0x30 ≤ b.toNat → b.toNat ≤ 0x39 → hexValue b = some (b.toNat - 0x30)) ∧
    (0x41 ≤ b.toNat → b.toNat ≤ 0x46 → hexValue b = some (b.toNat - 0x41 + 10)) ∧
    (0x61 ≤ b.toNat → b.toNat ≤ 0x66 → hexValue b = some (b.toNat - 0x61 + 10)) ∧
    (b.toNat < 0x30 ∨ 0x39 < b.toNat ∧ b.toNat < 0x41 ∨ 0x46 < b.toNat ∧ b.toNat < 0x61 ∨
      0x66 < b.toNat → hexValue b = none)

/-- R114: the shape of the output, and that codes differing in a nibble differ in that nibble's byte. Nibble `i`
(0 the least significant) stands at byte 9-i, 8-i or 7-i, in the subcode, category or service group. -/
def Obligations.FormatShapeAndInjective : Prop :=
  (∀ k : Word, (format k).length = 10 ∧ isCanonical (format k) = true) ∧
  ∀ (k k' : Word) (i : Nat), i < 8 → k.extractLsb' (4 * i) 4 ≠ k'.extractLsb' (4 * i) 4 →
    (format k)[if i < 3 then 9 - i else if i < 5 then 8 - i else 7 - i]? ≠
      (format k')[if i < 3 then 9 - i else if i < 5 then 8 - i else 7 - i]?

/-- R117: a segment has a value exactly when it is not empty and all its bytes are hex digits, and the value is
then the positional value of the numeral, here computed digit by digit from the left. -/
def Obligations.SegmentValueIsPositional : Prop :=
  ∀ (g : List Byte) (v : Nat),
    segValue g = some v ↔
      g ≠ [] ∧ ∃ ds : List Nat, List.Forall₂ (fun b d => hexValue b = some d) g ds ∧
        v = ds.foldl (fun acc d => 16 * acc + d) 0

/-- R116: the segments hold no separator, joined by separators they are the string, and there is one more of them
than separators. -/
def Obligations.SplitCutsAtEverySeparator : Prop :=
  ∀ s : List Byte,
    (∀ g ∈ split s, 0x2E#8 ∉ g) ∧ [0x2E#8].intercalate (split s) = s ∧
    (split s).length = s.count 0x2E#8 + 1

/-- R118, R119: Parse accepts exactly the strings of at most 16 bytes that are three groups of hex digits whose
values fit their fields, and its value is then the sum of the shifted values. -/
def Obligations.ParseAcceptsExactly : Prop :=
  ∀ (t : Vector Byte 16) (n : Nat) (k : Word),
    parse t n = .ok k ↔
      n ≤ 16 ∧ ∃ (a b c : List Byte) (va vb vc : Nat),
        bufPrefix t n = a ++ [0x2E#8] ++ b ++ [0x2E#8] ++ c ∧
        segValue a = some va ∧ segValue b = some vb ∧ segValue c = some vc ∧
        va < 2 ^ 12 ∧ vb < 2 ^ 8 ∧ vc < 2 ^ 12 ∧
        k.toNat = va * 2 ^ 20 + vb * 2 ^ 12 + vc

/-- R119: neither upper or lower case nor leading zeros change the value of a segment, and lower case does not
change the result of Parse. -/
def Obligations.CaseAndLeadingZerosDoNotMatter : Prop :=
  (∀ g : List Byte, segValue (g.map lowerHex) = segValue g) ∧
  (∀ g : List Byte, g ≠ [] → segValue (0x30#8 :: g) = segValue g) ∧
  ∀ (t : Vector Byte 16) (n : Nat), parse (t.map lowerHex) n = parse t n

/-- R120: the format and parse round trip, for every code and whatever T[10..15] hold. -/
def Obligations.ParseOfFormat : Prop :=
  (∀ (k : Word) (t : Vector Byte 16), bufPrefix t 10 = format k → parse t 10 = .ok k) ∧
  ∀ (s c u : Word) (t : Vector Byte 16), s.toNat < 2 ^ 12 → c.toNat < 2 ^ 8 → u.toNat < 2 ^ 12 →
    bufPrefix t 10 = format (packMasked s c u) → parse t 10 = .ok (packMasked s c u)

/-- R120 on the machine: PRS right after FMT succeeds and gives back the state FMT left. -/
def Obligations.PrsAfterFmtIsIdentity : Prop :=
  ∀ s : State, ∃ t, exec .fmt s = .next t ∧ exec .prs t = .next t ∧ t.k = s.k

/-- R122: Format of what Parse accepts is canonical text of the same code, and is the string itself exactly when
that is already canonical. -/
def Obligations.FormatOfParseIsCanonical : Prop :=
  ∀ (t : Vector Byte 16) (n : Nat) (k : Word), parse t n = .ok k →
    isCanonical (format k) = true ∧
    (∀ t' : Vector Byte 16, bufPrefix t' 10 = format k → parse t' 10 = .ok k) ∧
    (format k = bufPrefix t n ↔ isCanonical (bufPrefix t n) = true)

/-- R123: each field fills its own bytes of the text, and differs there exactly when the field differs. -/
def Obligations.FieldIsolation : Prop :=
  ∀ s s' c c' u u' : Word,
    s.toNat < 2 ^ 12 → s'.toNat < 2 ^ 12 → c.toNat < 2 ^ 8 → c'.toNat < 2 ^ 8 →
    u.toNat < 2 ^ 12 → u'.toNat < 2 ^ 12 →
      ((format (packMasked s c u)).take 4 = (format (packMasked s c' u)).take 4 ∧
        (format (packMasked s c u)).drop 6 = (format (packMasked s c' u)).drop 6 ∧
        (((format (packMasked s c u)).drop 4).take 2 ≠ ((format (packMasked s c' u)).drop 4).take 2 ↔
          c ≠ c')) ∧
      ((format (packMasked s c u)).drop 3 = (format (packMasked s' c u)).drop 3 ∧
        ((format (packMasked s c u)).take 3 ≠ (format (packMasked s' c u)).take 3 ↔ s ≠ s')) ∧
      ((format (packMasked s c u)).take 7 = (format (packMasked s c u')).take 7 ∧
        ((format (packMasked s c u)).drop 7 ≠ (format (packMasked s c u')).drop 7 ↔ u ≠ u'))

/-! ## The register window -/

/-- R41, R42: an access that is not 32 bits wide, or misaligned, is answered BUS_ERROR with read data 0 and
changes no register. -/
def Obligations.IllegalAccessHasNoEffect : Prop :=
  ∀ (s : State) (es : List Event) (a : Access),
    (a.width ≠ .w32 ∨ a.off.toNat % 4 ≠ 0) → s.port = .access a :: es →
      step s = .next { s with port := es, replies := s.replies ++ [⟨a, .busError, 0#32⟩] }

/-- R43, R44, R45: what a legal read returns at every offset of R23 and at the offsets with no register, and
that it has no side effect. -/
def Obligations.LegalReadsReturnTheRegister : Prop :=
  ∀ (s : State) (es : List Event) (off : BitVec 6) (d : Word),
    (off, d) ∈ [(0x00#6, 0#32), (0x04#6, s.status), (0x08#6, s.k), (0x0C#6, s.fs), (0x10#6, s.fc),
      (0x14#6, s.fu), (0x18#6, 0#32), (0x1C#6, s.tlen.setWidth 32),
      (0x20#6, s.t[3] ++ s.t[2] ++ s.t[1] ++ s.t[0]), (0x24#6, s.t[7] ++ s.t[6] ++ s.t[5] ++ s.t[4]),
      (0x28#6, s.t[11] ++ s.t[10] ++ s.t[9] ++ s.t[8]),
      (0x2C#6, s.t[15] ++ s.t[14] ++ s.t[13] ++ s.t[12]),
      (0x30#6, 0#32), (0x34#6, 0#32), (0x38#6, 0#32), (0x3C#6, 0#32)] →
    s.port = .access (.read .w32 off) :: es →
      step s = .next { s with port := es, replies := s.replies ++ [⟨.read .w32 off, .okay, d⟩] }

/-- R28, R44: a legal write to STATUS, or at an offset with no register, is answered OKAY and ignored. -/
def Obligations.IgnoredWritesChangeNoRegister : Prop :=
  ∀ (s : State) (es : List Event) (off : BitVec 6) (v : Word),
    off ∈ [0x04#6, 0x18#6, 0x30#6, 0x34#6, 0x38#6, 0x3C#6] →
    s.port = .access (.write .w32 off v) :: es →
      step s = .next { s with port := es, replies := s.replies ++ [⟨.write .w32 off v, .okay, 0#32⟩] }

/-- R23, R26, R45: a legal write to K, FS, FC, FU or TLEN stores the value (TLEN its bits 4:0), is answered OKAY,
and has no other effect. -/
def Obligations.RegisterWritesStoreTheValue : Prop :=
  ∀ (s u : State) (es : List Event) (off : BitVec 6) (v : Word),
    (off, u) ∈ [(0x08#6, { s with k := v }), (0x0C#6, { s with fs := v }), (0x10#6, { s with fc := v }),
      (0x14#6, { s with fu := v }), (0x1C#6, { s with tlen := v.extractLsb' 0 5 })] →
    s.port = .access (.write .w32 off v) :: es →
      step s = .next { u with port := es, replies := s.replies ++ [⟨.write .w32 off v, .okay, 0#32⟩] }

/-- R46: byte i of Tj is T[4j+i]. A legal write to Tj sets T[4j+i] to bits 8i+7:8i of the value for i = 0 to 3, leaves
the other bytes and every other register, and is answered OKAY. A legal read of Tj returns T[4j+3] ++ T[4j+2] ++
T[4j+1] ++ T[4j], and after a write of `v` that is `v`. -/
def Obligations.BufferWordsAreLittleEndian : Prop :=
  (∀ (t : Vector Byte 16) (j : Fin 4) (i : Nat), i < 4 →
    some ((bufWord t j).extractLsb' (8 * i) 8) = t[4 * j.val + i]?) ∧
  (∀ (s : State) (es : List Event) (j : Fin 4),
    s.port = .access (.read .w32 (BitVec.ofNat 6 (0x20 + 4 * j.val))) :: es →
      step s = .next { s with
        port := es,
        replies := s.replies ++ [⟨.read .w32 (BitVec.ofNat 6 (0x20 + 4 * j.val)), .okay,
          s.t[4 * j.val + 3] ++ s.t[4 * j.val + 2] ++ s.t[4 * j.val + 1] ++ s.t[4 * j.val]⟩] }) ∧
  ∀ (s : State) (es : List Event) (j : Fin 4) (v : Word),
    s.port = .access (.write .w32 (BitVec.ofNat 6 (0x20 + 4 * j.val)) v) :: es →
      ∃ b : Vector Byte 16,
        step s = .next { s with
          t := b, port := es,
          replies := s.replies ++ [⟨.write .w32 (BitVec.ofNat 6 (0x20 + 4 * j.val)) v, .okay, 0#32⟩] } ∧
        (∀ i : Nat, i < 4 → b[4 * j.val + i]? = some (v.extractLsb' (8 * i) 8)) ∧
        (∀ n : Nat, n / 4 ≠ j.val → b[n]? = s.t[n]?) ∧
        bufWord b j = v

/-- R45, R47: reading any legal offset after a legal write that runs no command gives the value written (TLEN its
bits 4:0) at that register's offset, and at every other offset what it gave before. -/
def Obligations.ReadAfterWindowWrite : Prop :=
  ∀ (s : State) (off off' : BitVec 6) (v : Word),
    off.toNat % 4 = 0 → off'.toNat % 4 = 0 → off ≠ 0x00#6 →
      readWindow off' (writeWindow off v s) =
        if off' = off ∧ off ∈ [0x08#6, 0x0C#6, 0x10#6, 0x14#6, 0x20#6, 0x24#6, 0x28#6, 0x2C#6] then v
        else if off' = off ∧ off = 0x1C#6 then BitVec.ofNat 32 (v.toNat % 32)
        else readWindow off' s

/-- R28: the fields of STATUS as the host reads it: ERR in bit 0, ILL in bit 1, CAUSE in bits 6:4, the rest 0. -/
def Obligations.StatusFieldsStandInTheirBits : Prop :=
  ∀ s : State,
    s.status.toNat = (if s.err then 1 else 0) + (if s.ill then 2 else 0) +
      16 * (match s.cause with
        | .none => 0
        | .length => 1
        | .segmentCount => 2
        | .notHex => 3
        | .fieldRange => 4)

/-! ## The whole machine -/

/-- R23, R170: every stored register is zero after reset, and STATUS reads 0. -/
def Obligations.ResetStateIsZero : Prop :=
  State.reset.k = 0#32 ∧ State.reset.fs = 0#32 ∧ State.reset.fc = 0#32 ∧ State.reset.fu = 0#32 ∧
  State.reset.tlen = 0#5 ∧ State.reset.t.toList = List.replicate 16 0x00#8 ∧
  State.reset.err = false ∧ State.reset.ill = false ∧ State.reset.cause = .none ∧
  State.reset.status = 0x00000000#32

/-- The model's reset event (log entry 4): it sets every register to the value of R170, and keeps what waits at the
port and what has been answered. -/
def Obligations.ResetEventZeroesRegisters : Prop :=
  ∀ (s : State) (es : List Event), s.port = .reset :: es →
    step s = .next { State.reset with port := es, replies := s.replies }

/-- R171: the commands right after reset. -/
def Obligations.CommandsAfterReset : Prop :=
  (∃ t, exec .dec State.reset = .next t ∧ t.fs = 0#32 ∧ t.fc = 0#32 ∧ t.fu = 0#32) ∧
  (∃ t, exec .fmt State.reset = .next t ∧ t.text =
    [0x30#8, 0x30#8, 0x30#8, 0x2E#8, 0x30#8, 0x30#8, 0x2E#8, 0x30#8, 0x30#8, 0x30#8]) ∧
  (∃ t, exec .prs State.reset = .next t ∧ t.err = true ∧ t.cause = .segmentCount) ∧
  (∃ t, exec .enc State.reset = .next t ∧ t.k = 0#32) ∧
  (∃ t, exec .encu State.reset = .next t ∧ t.k = 0#32)

/-- R20, R162 (log entry 3): with nothing waiting at the port, the block keeps its state. -/
def Obligations.IdleBlockKeepsItsState : Prop :=
  ∀ s : State, s.port = [] → step s = .next s

/-- R147: the block has no fault, stuck or refusal outcome: from every state a step gives a next state, and it
depends only on the registers and the event: two states with the same registers and the same port go to states
with the same registers, and give the same replies. -/
def Obligations.StepIsTotalOnTheRegisters : Prop :=
  ∀ s s' : State, s.SameRegisters s' → s.port = s'.port →
    ∃ t t' : State, step s = .next t ∧ step s' = .next t' ∧ t.SameRegisters t' ∧ t.port = t'.port ∧
      ∃ rs : List Reply, t.replies = s.replies ++ rs ∧ t'.replies = s'.replies ++ rs

/-- R47: from every state, as many steps as there are events at the port serve them all, and every access gets
exactly one reply, in the order the host issued them. The port and the replies are the model's lists (log entries
1 and 2), and that the accesses standing behind a reset are still served is the model's choice (log entry 4). -/
def Obligations.EveryAccessIsAnsweredInOrder : Prop :=
  ∀ s : State, ∃ t : State, core.run s.port.length s = .next t ∧ t.port = [] ∧
    t.replies.map Reply.access = s.replies.map Reply.access ++ s.waiting

/-- R29, with what R26, R28, R30, R42 and R44 say of a reply: the invariant of the machine, kept by every step
from every state that has it. -/
def Obligations.StepKeepsStatusAndReplyInvariant : Prop :=
  ∀ s t : State, s.Inv → step s = .next t → t.Inv

/-- R42, R153, R172: with a host that issues only aligned 32-bit accesses, a step keeps both that every access still
waiting is so, and that no access has got BUS_ERROR. -/
def Obligations.AlignedHostStaysFreeOfBusErrors : Prop :=
  ∀ s t : State, s.HostAligned ∧ s.NoBusError → step s = .next t → t.HostAligned ∧ t.NoBusError

/-- Both invariants hold at reset (R29, R170; nothing waits and nothing has been answered: log entries 1 and 2). -/
def Obligations.ResetHasTheInvariants : Prop :=
  State.reset.Inv ∧ State.reset.HostAligned ∧ State.reset.NoBusError

/-- R23, R45, R162: what can change each register in one step: the commands R23 lists for it, the host's write at
its offset, or reset. -/
def Obligations.RegistersChangeOnlyAsListed : Prop :=
  ∀ (s t : State) (e : Event) (es : List Event), s.port = e :: es → step s = .next t → e ≠ .reset →
    let cmdIs := fun i : Instr => e = .access (cmdWrite (encode i))
    let writes := fun off : BitVec 6 => ∃ v, e = .access (.write .w32 off v)
    (t.k ≠ s.k → cmdIs .enc ∨ cmdIs .encu ∨ cmdIs .prs ∨ writes 0x08#6) ∧
    (t.fs ≠ s.fs → cmdIs .dec ∨ writes 0x0C#6) ∧
    (t.fc ≠ s.fc → cmdIs .dec ∨ writes 0x10#6) ∧
    (t.fu ≠ s.fu → cmdIs .dec ∨ writes 0x14#6) ∧
    (t.tlen ≠ s.tlen → cmdIs .fmt ∨ writes 0x1C#6) ∧
    (t.t ≠ s.t → cmdIs .fmt ∨ writes 0x20#6 ∨ writes 0x24#6 ∨ writes 0x28#6 ∨ writes 0x2C#6) ∧
    (t.status ≠ s.status → writes 0x00#6)

/-- R150, R151, R152: ERR comes only from PRS, and ILL only from an illegal command word. -/
def Obligations.ConditionsHaveOneSource : Prop :=
  ∀ s t : State, step s = .next t →
    (t.err = true → s.err = true ∨ ∃ es, s.port = .access (cmdWrite 0x00000005#32) :: es) ∧
    (t.ill = true → s.ill = true ∨
      ∃ w es, s.port = .access (cmdWrite w) :: es ∧ (w.toNat / 8 ≠ 0 ∨ w.toNat = 6 ∨ w.toNat = 7))

/-! ## The bus and the assembler -/

/-- R40: an access whose address lies in the 64 bytes from an aligned base on reaches the block, which sees the
offset from the base, that is, the low 6 bits of the address. That an access by any other address does not reach the
block is the model's choice (log entry 14). -/
def Obligations.BusRoutesTheWindow : Prop :=
  ∀ (base : Nat) (b : BusAccess), base % 64 = 0 →
    ((b.route base).isSome = true ↔ base ≤ b.addr ∧ b.addr ≤ base + 0x3F) ∧
    ∀ a, b.route base = some a →
      a.off.toNat = b.addr - base ∧ a.off.toNat = b.addr % 64 ∧
      match b with
      | .read w _ => a = .read w a.off
      | .write w _ v => a = .write w a.off v

/-- R68: each command mnemonic assembles to its one write to CMD; ENCU is written in upper case here (R67: mnemonics
are case-insensitive). How a line's characters form tokens is the model's choice (log entry 12). -/
def Obligations.MnemonicsExpand : Prop :=
  Asm.assembleLine "nop".toList = some [.write .w32 0x00#6 0x00000000#32] ∧
  Asm.assembleLine "enc".toList = some [.write .w32 0x00#6 0x00000001#32] ∧
  Asm.assembleLine "ENCU".toList = some [.write .w32 0x00#6 0x00000002#32] ∧
  Asm.assembleLine "dec".toList = some [.write .w32 0x00#6 0x00000003#32] ∧
  Asm.assembleLine "fmt".toList = some [.write .w32 0x00#6 0x00000004#32] ∧
  Asm.assembleLine "prs".toList = some [.write .w32 0x00#6 0x00000005#32]

/-- R69, R70, with the ranges of R67: the expansion of every pseudo-instruction on every operand. `ldk` and `ldf`
take numbers below 2^32 and are rejected with any other. `ldt` takes a literal of at most 16 bytes, whose bytes with
0x00 after them are `B`, and is rejected with a longer one. -/
def Obligations.PseudoInstructionsExpand : Prop :=
  (∀ n : Nat, n < 2 ^ 32 →
    (Asm.Stmt.ldk n).assemble = some [.write .w32 0x08#6 (BitVec.ofNat 32 n)]) ∧
  (∀ n : Nat, 2 ^ 32 ≤ n → (Asm.Stmt.ldk n).assemble = none) ∧
  (∀ a b c : Nat, a < 2 ^ 32 → b < 2 ^ 32 → c < 2 ^ 32 →
    (Asm.Stmt.ldf a b c).assemble =
      some [.write .w32 0x0C#6 (BitVec.ofNat 32 a), .write .w32 0x10#6 (BitVec.ofNat 32 b),
        .write .w32 0x14#6 (BitVec.ofNat 32 c)]) ∧
  (∀ a b c : Nat, 2 ^ 32 ≤ a ∨ 2 ^ 32 ≤ b ∨ 2 ^ 32 ≤ c → (Asm.Stmt.ldf a b c).assemble = none) ∧
  (∀ (bytes : List Byte) (B : Nat → Byte), bytes.length ≤ 16 →
    (∀ i, i < bytes.length → bytes[i]? = some (B i)) →
    (∀ i, bytes.length ≤ i → i < 16 → B i = 0x00#8) →
      (Asm.Stmt.ldt bytes).assemble =
        some [.write .w32 0x20#6 (B 3 ++ B 2 ++ B 1 ++ B 0),
          .write .w32 0x24#6 (B 7 ++ B 6 ++ B 5 ++ B 4),
          .write .w32 0x28#6 (B 11 ++ B 10 ++ B 9 ++ B 8),
          .write .w32 0x2C#6 (B 15 ++ B 14 ++ B 13 ++ B 12),
          .write .w32 0x1C#6 (BitVec.ofNat 32 bytes.length)]) ∧
  (∀ bytes : List Byte, 16 < bytes.length → (Asm.Stmt.ldt bytes).assemble = none) ∧
  Asm.Stmt.rdk.assemble = some [.read .w32 0x08#6] ∧
  Asm.Stmt.rdf.assemble = some [.read .w32 0x0C#6, .read .w32 0x10#6, .read .w32 0x14#6] ∧
  Asm.Stmt.rdt.assemble =
    some [.read .w32 0x1C#6, .read .w32 0x20#6, .read .w32 0x24#6, .read .w32 0x28#6, .read .w32 0x2C#6] ∧
  Asm.Stmt.rds.assemble = some [.read .w32 0x04#6]

/-- R67, R70: everything the assembler emits is a legal 32-bit access. -/
def Obligations.AssembledAccessesAreLegal : Prop :=
  ∀ (lines : List (List Char)) (as : List Access), Asm.assemble lines = some as →
    ∀ a ∈ as, a.legal = true

/-- R46, R69: serving the five writes of `ldt` puts the literal's bytes into T, 0x00 after them, and its length
into TLEN, so that the string TLEN names is the literal, and changes no other register. -/
def Obligations.LdtLoadsTheLiteral : Prop :=
  ∀ (s : State) (bytes : List Byte), bytes.length ≤ 16 → s.port = [] →
    ∃ as t, (Asm.Stmt.ldt bytes).assemble = some as ∧ core.run 5 (s.enqueue as) = .next t ∧
      t.port = [] ∧ t.tlen.toNat = bytes.length ∧ t.text = bytes ∧
      t.t.toList = bytes ++ List.replicate (16 - bytes.length) 0x00#8 ∧
      t.k = s.k ∧ t.fs = s.fs ∧ t.fc = s.fc ∧ t.fu = s.fu ∧ t.status = s.status

/-- R67, R70: the expansion of the raw statements on every operand. An `off` is a multiple of 4 in 0x00..0x3C and an
`imm` is below 2^32; with any other number the statement is rejected and emits nothing. `.cmd imm` is
`wr 0x00, imm`. -/
def Obligations.RawStatementsExpand : Prop :=
  (∀ off imm : Nat, off ≤ 0x3C → off % 4 = 0 → imm < 2 ^ 32 →
    (Asm.Stmt.wr off imm).assemble = some [.write .w32 (BitVec.ofNat 6 off) (BitVec.ofNat 32 imm)]) ∧
  (∀ off imm : Nat, 0x3C < off ∨ off % 4 ≠ 0 ∨ 2 ^ 32 ≤ imm → (Asm.Stmt.wr off imm).assemble = none) ∧
  (∀ off : Nat, off ≤ 0x3C → off % 4 = 0 →
    (Asm.Stmt.rd off).assemble = some [.read .w32 (BitVec.ofNat 6 off)]) ∧
  (∀ off : Nat, 0x3C < off ∨ off % 4 ≠ 0 → (Asm.Stmt.rd off).assemble = none) ∧
  (∀ imm : Nat, imm < 2 ^ 32 →
    (Asm.Stmt.cmd imm).assemble = some [.write .w32 0x00#6 (BitVec.ofNat 32 imm)]) ∧
  ∀ imm : Nat, 2 ^ 32 ≤ imm → (Asm.Stmt.cmd imm).assemble = none

/-! ## Commands in sequence -/

/-- R83, R87, R100 on the machine: DEC completes from every state, writes the three fields of K, zero-extended, and
STATUS = 0, and nothing else; and packing what it wrote, by ENC or by ENCU, completes and gives back the state DEC
left, K included. -/
def Obligations.PackAfterDecIsIdentity : Prop :=
  ∀ s : State, ∃ t : State, exec .dec s = .next t ∧
    t = { s with fs := t.fs, fc := t.fc, fu := t.fu, err := false, ill := false, cause := .none } ∧
    t.fs.toNat = s.k.toNat / 2 ^ 20 ∧ t.fc.toNat = s.k.toNat / 2 ^ 12 % 2 ^ 8 ∧
    t.fu.toNat = s.k.toNat % 2 ^ 12 ∧
    exec .enc t = .next t ∧ exec .encu t = .next t ∧ t.k = s.k
end

