-- ==== Sys2Proof/Laws/Bus.lean ====
section
/-! SUPPORT. Lemmas about the bus side: which addresses lie in the window, and ECC_BASE. -/

namespace Sys2Proof.Machine

/-- The window is the 64 bytes from the base on (R40). -/
theorem inWindow_iff (base addr : Nat) : inWindow base addr = true ↔ base ≤ addr ∧ addr ≤ base + 0x3F := by
  simp only [inWindow, Bool.and_eq_true, decide_eq_true_eq]
  simp only [Config.windowBytes]
  omega

/-- ECC_BASE is a multiple of 64, whichever window the platform chose (R40). -/
theorem eccBase_aligned : Config.eccBase % 64 = 0 := by
  simp [Config.eccBase]

end Sys2Proof.Machine
end

