-- ==== Sys2Proof/Laws/Decode.lean ====
section
/-! SUPPORT. Lemmas about the fields of a command word and the decoder's table. -/

namespace Sys2Proof

theorem CmdWord.rsv_toNat (w : Word) : (CmdWord.ofWord w).rsv.toNat = w.toNat / 8 := by
  have := w.isLt
  simp [CmdWord.ofWord, Nat.shiftRight_eq_div_pow]
  omega

theorem CmdWord.op_toNat (w : Word) : (CmdWord.ofWord w).op.toNat = w.toNat % 8 := by
  simp [CmdWord.ofWord]

theorem CmdWord.toWord_toNat (c : CmdWord) : c.toWord.toNat = c.rsv.toNat * 8 + c.op.toNat := by
  have := c.op.isLt
  rw [CmdWord.toWord, BitVec.toNat_append, ← Nat.shiftLeft_add_eq_or_of_lt this, Nat.shiftLeft_eq]

/-- A command word is its two fields (R60). -/
theorem CmdWord.toWord_ofWord (w : Word) : (CmdWord.ofWord w).toWord = w := by
  apply BitVec.eq_of_toNat_eq
  rw [CmdWord.toWord_toNat, CmdWord.rsv_toNat, CmdWord.op_toNat]
  omega

theorem encode_toNat (i : Instr) : (encode i).toNat = i.op.toNat := by
  simp [encode, CmdWord.toWord_toNat]

/-- The table of R64, one row per opcode, with the two illegal kinds of R65: what the decoder says of a word, by
its fields. -/
theorem decode_eq (w : Word) :
    decode w =
      if w.toNat / 8 ≠ 0 then .error .rsvNonzero
      else match w.toNat % 8 with
        | 0 => .ok .nop
        | 1 => .ok .enc
        | 2 => .ok .encu
        | 3 => .ok .dec
        | 4 => .ok .fmt
        | 5 => .ok .prs
        | _ => .error .opReserved := by
  have hr : (CmdWord.ofWord w).rsv ≠ 0#29 ↔ w.toNat / 8 ≠ 0 := by
    rw [← CmdWord.rsv_toNat, ne_eq, ← BitVec.toNat_inj]
    simp
  simp only [decode, CmdWord.decode, hr, CmdWord.op_toNat]
  all_goals rfl

end Sys2Proof
end

