-- ==== Sys2Proof/Laws/State.lean ====
section
/-! SUPPORT. One lemma per field of State per update, each true by rfl, so that no later proof unfolds a record
update. -/

namespace Sys2Proof.Machine

@[simp] theorem State.setStatus_k (s : State) (e i : Bool) (c : Cause) : (s.setStatus e i c).k = s.k := rfl
@[simp] theorem State.setStatus_fs (s : State) (e i : Bool) (c : Cause) : (s.setStatus e i c).fs = s.fs := rfl
@[simp] theorem State.setStatus_fc (s : State) (e i : Bool) (c : Cause) : (s.setStatus e i c).fc = s.fc := rfl
@[simp] theorem State.setStatus_fu (s : State) (e i : Bool) (c : Cause) : (s.setStatus e i c).fu = s.fu := rfl
@[simp] theorem State.setStatus_tlen (s : State) (e i : Bool) (c : Cause) : (s.setStatus e i c).tlen = s.tlen := rfl
@[simp] theorem State.setStatus_t (s : State) (e i : Bool) (c : Cause) : (s.setStatus e i c).t = s.t := rfl
@[simp] theorem State.setStatus_err (s : State) (e i : Bool) (c : Cause) : (s.setStatus e i c).err = e := rfl
@[simp] theorem State.setStatus_ill (s : State) (e i : Bool) (c : Cause) : (s.setStatus e i c).ill = i := rfl
@[simp] theorem State.setStatus_cause (s : State) (e i : Bool) (c : Cause) : (s.setStatus e i c).cause = c := rfl
@[simp] theorem State.setStatus_port (s : State) (e i : Bool) (c : Cause) : (s.setStatus e i c).port = s.port := rfl
@[simp] theorem State.setStatus_replies (s : State) (e i : Bool) (c : Cause) : (s.setStatus e i c).replies = s.replies := rfl

@[simp] theorem State.clearStatus_k (s : State) : (s.clearStatus).k = s.k := rfl
@[simp] theorem State.clearStatus_fs (s : State) : (s.clearStatus).fs = s.fs := rfl
@[simp] theorem State.clearStatus_fc (s : State) : (s.clearStatus).fc = s.fc := rfl
@[simp] theorem State.clearStatus_fu (s : State) : (s.clearStatus).fu = s.fu := rfl
@[simp] theorem State.clearStatus_tlen (s : State) : (s.clearStatus).tlen = s.tlen := rfl
@[simp] theorem State.clearStatus_t (s : State) : (s.clearStatus).t = s.t := rfl
@[simp] theorem State.clearStatus_err (s : State) : (s.clearStatus).err = false := rfl
@[simp] theorem State.clearStatus_ill (s : State) : (s.clearStatus).ill = false := rfl
@[simp] theorem State.clearStatus_cause (s : State) : (s.clearStatus).cause = Cause.none := rfl
@[simp] theorem State.clearStatus_port (s : State) : (s.clearStatus).port = s.port := rfl
@[simp] theorem State.clearStatus_replies (s : State) : (s.clearStatus).replies = s.replies := rfl

@[simp] theorem State.fail_k (s : State) (c : Cause) : (s.fail c).k = s.k := rfl
@[simp] theorem State.fail_fs (s : State) (c : Cause) : (s.fail c).fs = s.fs := rfl
@[simp] theorem State.fail_fc (s : State) (c : Cause) : (s.fail c).fc = s.fc := rfl
@[simp] theorem State.fail_fu (s : State) (c : Cause) : (s.fail c).fu = s.fu := rfl
@[simp] theorem State.fail_tlen (s : State) (c : Cause) : (s.fail c).tlen = s.tlen := rfl
@[simp] theorem State.fail_t (s : State) (c : Cause) : (s.fail c).t = s.t := rfl
@[simp] theorem State.fail_err (s : State) (c : Cause) : (s.fail c).err = true := rfl
@[simp] theorem State.fail_ill (s : State) (c : Cause) : (s.fail c).ill = false := rfl
@[simp] theorem State.fail_cause (s : State) (c : Cause) : (s.fail c).cause = c := rfl
@[simp] theorem State.fail_port (s : State) (c : Cause) : (s.fail c).port = s.port := rfl
@[simp] theorem State.fail_replies (s : State) (c : Cause) : (s.fail c).replies = s.replies := rfl

@[simp] theorem State.signalIllegal_k (s : State) : (s.signalIllegal).k = s.k := rfl
@[simp] theorem State.signalIllegal_fs (s : State) : (s.signalIllegal).fs = s.fs := rfl
@[simp] theorem State.signalIllegal_fc (s : State) : (s.signalIllegal).fc = s.fc := rfl
@[simp] theorem State.signalIllegal_fu (s : State) : (s.signalIllegal).fu = s.fu := rfl
@[simp] theorem State.signalIllegal_tlen (s : State) : (s.signalIllegal).tlen = s.tlen := rfl
@[simp] theorem State.signalIllegal_t (s : State) : (s.signalIllegal).t = s.t := rfl
@[simp] theorem State.signalIllegal_err (s : State) : (s.signalIllegal).err = false := rfl
@[simp] theorem State.signalIllegal_ill (s : State) : (s.signalIllegal).ill = true := rfl
@[simp] theorem State.signalIllegal_cause (s : State) : (s.signalIllegal).cause = Cause.none := rfl
@[simp] theorem State.signalIllegal_port (s : State) : (s.signalIllegal).port = s.port := rfl
@[simp] theorem State.signalIllegal_replies (s : State) : (s.signalIllegal).replies = s.replies := rfl

@[simp] theorem State.writeK_k (s : State) (v : Word) : (s.writeK v).k = v := rfl
@[simp] theorem State.writeK_fs (s : State) (v : Word) : (s.writeK v).fs = s.fs := rfl
@[simp] theorem State.writeK_fc (s : State) (v : Word) : (s.writeK v).fc = s.fc := rfl
@[simp] theorem State.writeK_fu (s : State) (v : Word) : (s.writeK v).fu = s.fu := rfl
@[simp] theorem State.writeK_tlen (s : State) (v : Word) : (s.writeK v).tlen = s.tlen := rfl
@[simp] theorem State.writeK_t (s : State) (v : Word) : (s.writeK v).t = s.t := rfl
@[simp] theorem State.writeK_err (s : State) (v : Word) : (s.writeK v).err = s.err := rfl
@[simp] theorem State.writeK_ill (s : State) (v : Word) : (s.writeK v).ill = s.ill := rfl
@[simp] theorem State.writeK_cause (s : State) (v : Word) : (s.writeK v).cause = s.cause := rfl
@[simp] theorem State.writeK_port (s : State) (v : Word) : (s.writeK v).port = s.port := rfl
@[simp] theorem State.writeK_replies (s : State) (v : Word) : (s.writeK v).replies = s.replies := rfl

@[simp] theorem State.writeFs_k (s : State) (v : Word) : (s.writeFs v).k = s.k := rfl
@[simp] theorem State.writeFs_fs (s : State) (v : Word) : (s.writeFs v).fs = v := rfl
@[simp] theorem State.writeFs_fc (s : State) (v : Word) : (s.writeFs v).fc = s.fc := rfl
@[simp] theorem State.writeFs_fu (s : State) (v : Word) : (s.writeFs v).fu = s.fu := rfl
@[simp] theorem State.writeFs_tlen (s : State) (v : Word) : (s.writeFs v).tlen = s.tlen := rfl
@[simp] theorem State.writeFs_t (s : State) (v : Word) : (s.writeFs v).t = s.t := rfl
@[simp] theorem State.writeFs_err (s : State) (v : Word) : (s.writeFs v).err = s.err := rfl
@[simp] theorem State.writeFs_ill (s : State) (v : Word) : (s.writeFs v).ill = s.ill := rfl
@[simp] theorem State.writeFs_cause (s : State) (v : Word) : (s.writeFs v).cause = s.cause := rfl
@[simp] theorem State.writeFs_port (s : State) (v : Word) : (s.writeFs v).port = s.port := rfl
@[simp] theorem State.writeFs_replies (s : State) (v : Word) : (s.writeFs v).replies = s.replies := rfl

@[simp] theorem State.writeFc_k (s : State) (v : Word) : (s.writeFc v).k = s.k := rfl
@[simp] theorem State.writeFc_fs (s : State) (v : Word) : (s.writeFc v).fs = s.fs := rfl
@[simp] theorem State.writeFc_fc (s : State) (v : Word) : (s.writeFc v).fc = v := rfl
@[simp] theorem State.writeFc_fu (s : State) (v : Word) : (s.writeFc v).fu = s.fu := rfl
@[simp] theorem State.writeFc_tlen (s : State) (v : Word) : (s.writeFc v).tlen = s.tlen := rfl
@[simp] theorem State.writeFc_t (s : State) (v : Word) : (s.writeFc v).t = s.t := rfl
@[simp] theorem State.writeFc_err (s : State) (v : Word) : (s.writeFc v).err = s.err := rfl
@[simp] theorem State.writeFc_ill (s : State) (v : Word) : (s.writeFc v).ill = s.ill := rfl
@[simp] theorem State.writeFc_cause (s : State) (v : Word) : (s.writeFc v).cause = s.cause := rfl
@[simp] theorem State.writeFc_port (s : State) (v : Word) : (s.writeFc v).port = s.port := rfl
@[simp] theorem State.writeFc_replies (s : State) (v : Word) : (s.writeFc v).replies = s.replies := rfl

@[simp] theorem State.writeFu_k (s : State) (v : Word) : (s.writeFu v).k = s.k := rfl
@[simp] theorem State.writeFu_fs (s : State) (v : Word) : (s.writeFu v).fs = s.fs := rfl
@[simp] theorem State.writeFu_fc (s : State) (v : Word) : (s.writeFu v).fc = s.fc := rfl
@[simp] theorem State.writeFu_fu (s : State) (v : Word) : (s.writeFu v).fu = v := rfl
@[simp] theorem State.writeFu_tlen (s : State) (v : Word) : (s.writeFu v).tlen = s.tlen := rfl
@[simp] theorem State.writeFu_t (s : State) (v : Word) : (s.writeFu v).t = s.t := rfl
@[simp] theorem State.writeFu_err (s : State) (v : Word) : (s.writeFu v).err = s.err := rfl
@[simp] theorem State.writeFu_ill (s : State) (v : Word) : (s.writeFu v).ill = s.ill := rfl
@[simp] theorem State.writeFu_cause (s : State) (v : Word) : (s.writeFu v).cause = s.cause := rfl
@[simp] theorem State.writeFu_port (s : State) (v : Word) : (s.writeFu v).port = s.port := rfl
@[simp] theorem State.writeFu_replies (s : State) (v : Word) : (s.writeFu v).replies = s.replies := rfl

@[simp] theorem State.writeTlen_k (s : State) (v : Word) : (s.writeTlen v).k = s.k := rfl
@[simp] theorem State.writeTlen_fs (s : State) (v : Word) : (s.writeTlen v).fs = s.fs := rfl
@[simp] theorem State.writeTlen_fc (s : State) (v : Word) : (s.writeTlen v).fc = s.fc := rfl
@[simp] theorem State.writeTlen_fu (s : State) (v : Word) : (s.writeTlen v).fu = s.fu := rfl
@[simp] theorem State.writeTlen_tlen (s : State) (v : Word) : (s.writeTlen v).tlen = v.setWidth 5 := rfl
@[simp] theorem State.writeTlen_t (s : State) (v : Word) : (s.writeTlen v).t = s.t := rfl
@[simp] theorem State.writeTlen_err (s : State) (v : Word) : (s.writeTlen v).err = s.err := rfl
@[simp] theorem State.writeTlen_ill (s : State) (v : Word) : (s.writeTlen v).ill = s.ill := rfl
@[simp] theorem State.writeTlen_cause (s : State) (v : Word) : (s.writeTlen v).cause = s.cause := rfl
@[simp] theorem State.writeTlen_port (s : State) (v : Word) : (s.writeTlen v).port = s.port := rfl
@[simp] theorem State.writeTlen_replies (s : State) (v : Word) : (s.writeTlen v).replies = s.replies := rfl

@[simp] theorem State.writeT_k (s : State) (b : Vector Byte 16) : (s.writeT b).k = s.k := rfl
@[simp] theorem State.writeT_fs (s : State) (b : Vector Byte 16) : (s.writeT b).fs = s.fs := rfl
@[simp] theorem State.writeT_fc (s : State) (b : Vector Byte 16) : (s.writeT b).fc = s.fc := rfl
@[simp] theorem State.writeT_fu (s : State) (b : Vector Byte 16) : (s.writeT b).fu = s.fu := rfl
@[simp] theorem State.writeT_tlen (s : State) (b : Vector Byte 16) : (s.writeT b).tlen = s.tlen := rfl
@[simp] theorem State.writeT_t (s : State) (b : Vector Byte 16) : (s.writeT b).t = b := rfl
@[simp] theorem State.writeT_err (s : State) (b : Vector Byte 16) : (s.writeT b).err = s.err := rfl
@[simp] theorem State.writeT_ill (s : State) (b : Vector Byte 16) : (s.writeT b).ill = s.ill := rfl
@[simp] theorem State.writeT_cause (s : State) (b : Vector Byte 16) : (s.writeT b).cause = s.cause := rfl
@[simp] theorem State.writeT_port (s : State) (b : Vector Byte 16) : (s.writeT b).port = s.port := rfl
@[simp] theorem State.writeT_replies (s : State) (b : Vector Byte 16) : (s.writeT b).replies = s.replies := rfl

@[simp] theorem State.resetRegisters_k (s : State) : (s.resetRegisters).k = 0#32 := rfl
@[simp] theorem State.resetRegisters_fs (s : State) : (s.resetRegisters).fs = 0#32 := rfl
@[simp] theorem State.resetRegisters_fc (s : State) : (s.resetRegisters).fc = 0#32 := rfl
@[simp] theorem State.resetRegisters_fu (s : State) : (s.resetRegisters).fu = 0#32 := rfl
@[simp] theorem State.resetRegisters_tlen (s : State) : (s.resetRegisters).tlen = 0#5 := rfl
@[simp] theorem State.resetRegisters_t (s : State) : (s.resetRegisters).t = Vector.replicate 16 0#8 := rfl
@[simp] theorem State.resetRegisters_err (s : State) : (s.resetRegisters).err = false := rfl
@[simp] theorem State.resetRegisters_ill (s : State) : (s.resetRegisters).ill = false := rfl
@[simp] theorem State.resetRegisters_cause (s : State) : (s.resetRegisters).cause = Cause.none := rfl
@[simp] theorem State.resetRegisters_port (s : State) : (s.resetRegisters).port = s.port := rfl
@[simp] theorem State.resetRegisters_replies (s : State) : (s.resetRegisters).replies = s.replies := rfl

@[simp] theorem State.answer_k (s : State) (a : Access) (r : Resp) (d : Word) : (s.answer a r d).k = s.k := rfl
@[simp] theorem State.answer_fs (s : State) (a : Access) (r : Resp) (d : Word) : (s.answer a r d).fs = s.fs := rfl
@[simp] theorem State.answer_fc (s : State) (a : Access) (r : Resp) (d : Word) : (s.answer a r d).fc = s.fc := rfl
@[simp] theorem State.answer_fu (s : State) (a : Access) (r : Resp) (d : Word) : (s.answer a r d).fu = s.fu := rfl
@[simp] theorem State.answer_tlen (s : State) (a : Access) (r : Resp) (d : Word) : (s.answer a r d).tlen = s.tlen := rfl
@[simp] theorem State.answer_t (s : State) (a : Access) (r : Resp) (d : Word) : (s.answer a r d).t = s.t := rfl
@[simp] theorem State.answer_err (s : State) (a : Access) (r : Resp) (d : Word) : (s.answer a r d).err = s.err := rfl
@[simp] theorem State.answer_ill (s : State) (a : Access) (r : Resp) (d : Word) : (s.answer a r d).ill = s.ill := rfl
@[simp] theorem State.answer_cause (s : State) (a : Access) (r : Resp) (d : Word) : (s.answer a r d).cause = s.cause := rfl
@[simp] theorem State.answer_port (s : State) (a : Access) (r : Resp) (d : Word) : (s.answer a r d).port = s.port := rfl
@[simp] theorem State.answer_replies (s : State) (a : Access) (r : Resp) (d : Word) : (s.answer a r d).replies = s.replies ++ [⟨a, r, d⟩] := rfl

@[simp] theorem State.enqueue_k (s : State) (as : List Access) : (s.enqueue as).k = s.k := rfl
@[simp] theorem State.enqueue_fs (s : State) (as : List Access) : (s.enqueue as).fs = s.fs := rfl
@[simp] theorem State.enqueue_fc (s : State) (as : List Access) : (s.enqueue as).fc = s.fc := rfl
@[simp] theorem State.enqueue_fu (s : State) (as : List Access) : (s.enqueue as).fu = s.fu := rfl
@[simp] theorem State.enqueue_tlen (s : State) (as : List Access) : (s.enqueue as).tlen = s.tlen := rfl
@[simp] theorem State.enqueue_t (s : State) (as : List Access) : (s.enqueue as).t = s.t := rfl
@[simp] theorem State.enqueue_err (s : State) (as : List Access) : (s.enqueue as).err = s.err := rfl
@[simp] theorem State.enqueue_ill (s : State) (as : List Access) : (s.enqueue as).ill = s.ill := rfl
@[simp] theorem State.enqueue_cause (s : State) (as : List Access) : (s.enqueue as).cause = s.cause := rfl
@[simp] theorem State.enqueue_port (s : State) (as : List Access) : (s.enqueue as).port = s.port ++ as.map Event.access := rfl
@[simp] theorem State.enqueue_replies (s : State) (as : List Access) : (s.enqueue as).replies = s.replies := rfl

@[simp] theorem State.reset_k : State.reset.k = 0#32 := rfl
@[simp] theorem State.reset_fs : State.reset.fs = 0#32 := rfl
@[simp] theorem State.reset_fc : State.reset.fc = 0#32 := rfl
@[simp] theorem State.reset_fu : State.reset.fu = 0#32 := rfl
@[simp] theorem State.reset_tlen : State.reset.tlen = 0#5 := rfl
@[simp] theorem State.reset_t : State.reset.t = Vector.replicate 16 0#8 := rfl
@[simp] theorem State.reset_err : State.reset.err = false := rfl
@[simp] theorem State.reset_ill : State.reset.ill = false := rfl
@[simp] theorem State.reset_cause : State.reset.cause = Cause.none := rfl
@[simp] theorem State.reset_port : State.reset.port = [] := rfl
@[simp] theorem State.reset_replies : State.reset.replies = [] := rfl

@[simp] theorem onNext_next (f : State → State) (s : State) : onNext f (.next s) = .next (f s) := rfl

end Sys2Proof.Machine
end

