-- ==== Sys2Proof/Laws/Ops.lean ====
section
/-! SUPPORT. What the shared operations can do, said once: the buffer of T, the commands, one host access, one
event, one step. The proofs cite these and do not unfold the operations. -/

namespace Sys2Proof.Machine

/-! ### The buffer T -/

theorem bufOfBytes_getElem (f : List Byte) (n : Nat) (h : n < 16) :
    (bufOfBytes f)[n] = f.getD n 0x00#8 := by
  simp [bufOfBytes]

/-- A string of at most 16 bytes stands in the buffer from T[0] on, with 0x00 after it (R125). -/
theorem bufOfBytes_toList (f : List Byte) (h : f.length ≤ 16) :
    (bufOfBytes f).toList = f ++ List.replicate (16 - f.length) 0x00#8 := by
  apply List.ext_getElem
  · simp only [Vector.length_toList, List.length_append, List.length_replicate]; omega
  · intro i h1 h2
    simp only [Vector.length_toList] at h1
    simp only [Vector.getElem_toList, bufOfBytes_getElem _ _ h1, List.getElem_append, List.getElem_replicate]
    split
    · rw [List.getD_eq_getElem]
    · rw [List.getD_eq_default]; omega

/-- Reading such a string back gives it (R27). -/
theorem bufPrefix_bufOfBytes (f : List Byte) (h : f.length ≤ 16) :
    bufPrefix (bufOfBytes f) f.length = f := by
  rw [bufPrefix, bufOfBytes_toList f h, List.take_left']
  rfl

theorem setBufWord_getElem (t : Vector Byte 16) (j : Fin 4) (v : Word) (n : Nat) (h : n < 16) :
    (setBufWord t j v)[n] = if n / 4 = j.val then byteOf v (n % 4) else t[n] := by
  simp [setBufWord]

/-- A word is its four bytes, the first the least significant (R46). -/
theorem append_byteOf (v : Word) : byteOf v 3 ++ byteOf v 2 ++ byteOf v 1 ++ byteOf v 0 = v := by
  apply BitVec.eq_of_getElem_eq
  intro i hi
  simp only [byteOf, BitVec.getElem_append, BitVec.getElem_extractLsb']
  rw [← BitVec.getLsbD_eq_getElem]
  split
  · simp
  · split
    · congr 1; omega
    · split
      · congr 1; omega
      · congr 1; omega

/-- The buffer word just written reads as the value written, and every other word as before (R46). -/
theorem bufWord_setBufWord (t : Vector Byte 16) (i j : Fin 4) (v : Word) :
    bufWord (setBufWord t j v) i = if i = j then v else bufWord t i := by
  have hi := i.isLt
  have hb : ∀ n : Nat, n < 4 → (4 * i.val + n) / 4 = i.val ∧ (4 * i.val + n) % 4 = n := by omega
  have h0 : 4 * i.val / 4 = i.val ∧ 4 * i.val % 4 = 0 := by omega
  simp only [bufWord, setBufWord_getElem, (hb 3 (by omega)).1, (hb 3 (by omega)).2,
    (hb 2 (by omega)).1, (hb 2 (by omega)).2, (hb 1 (by omega)).1, (hb 1 (by omega)).2, h0.1, h0.2]
  by_cases h : i = j
  · subst h; simp [append_byteOf]
  · simp [h, show i.val ≠ j.val from fun e => h (Fin.ext e)]

/-! ### The commands -/

theorem exec_fmt_eq (s : State) :
    exec .fmt s = .next ((s.writeT (bufOfBytes (format s.k))).writeTlen 10#32).clearStatus := rfl

theorem exec_prs_ok {s : State} {k : Word} (h : parse s.t s.tlen.toNat = .ok k) :
    exec .prs s = .next (s.writeK k).clearStatus := by
  simp only [exec, execPrs, h]

theorem exec_prs_error {s : State} {c : Cause} (h : parse s.t s.tlen.toNat = .error c) :
    exec .prs s = .next (s.fail c) := by
  simp only [exec, execPrs, h]

/-- What each command leaves, as one state update: every effect of every command, and its whole frame (R62). -/
theorem exec_cases {i : Instr} {s t : State} (h : exec i s = .next t) :
    (i = .nop ∧ t = s.clearStatus) ∨
    (i = .enc ∧ t = (s.writeK (packMasked s.fs s.fc s.fu)).clearStatus) ∨
    (i = .encu ∧ t = (s.writeK (packUnchecked s.fs s.fc s.fu)).clearStatus) ∨
    (i = .dec ∧ t = ((((s.writeFs (unpack s.k).service).writeFc (unpack s.k).category).writeFu
      (unpack s.k).subcode).clearStatus)) ∨
    (i = .fmt ∧ t = ((s.writeT (bufOfBytes (format s.k))).writeTlen 10#32).clearStatus) ∨
    (i = .prs ∧ ∃ k, parse s.t s.tlen.toNat = .ok k ∧ t = (s.writeK k).clearStatus) ∨
    (i = .prs ∧ ∃ c, parse s.t s.tlen.toNat = .error c ∧ t = s.fail c) := by
  cases i with
  | nop => exact .inl ⟨rfl, by cases h; rfl⟩
  | enc => exact .inr (.inl ⟨rfl, by cases h; rfl⟩)
  | encu => exact .inr (.inr (.inl ⟨rfl, by cases h; rfl⟩))
  | dec => exact .inr (.inr (.inr (.inl ⟨rfl, by cases h; rfl⟩)))
  | fmt =>
    simp only [exec, execFmt, Config.textLen, Host.Outcome.next.injEq] at h
    exact .inr (.inr (.inr (.inr (.inl ⟨rfl, h.symm⟩))))
  | prs =>
    simp only [exec, execPrs] at h
    cases hp : parse s.t s.tlen.toNat with
    | ok k => rw [hp] at h; cases h; simp
    | error c => rw [hp] at h; cases h; simp

/-- A command answers a next state from every state (R89, R147: the core functions are total). -/
theorem exec_next (i : Instr) (s : State) : ∃ t, exec i s = .next t := by
  cases i with
  | nop => exact ⟨_, rfl⟩
  | enc => exact ⟨_, rfl⟩
  | encu => exact ⟨_, rfl⟩
  | dec => exact ⟨_, rfl⟩
  | fmt => exact ⟨_, rfl⟩
  | prs => simp only [exec, execPrs]; split <;> exact ⟨_, rfl⟩

/-- A command touches neither the port nor the replies: they are the host's. -/
theorem exec_port_replies {i : Instr} {s t : State} (h : exec i s = .next t) :
    t.port = s.port ∧ t.replies = s.replies := by
  rcases exec_cases h with ⟨-, rfl⟩ | ⟨-, rfl⟩ | ⟨-, rfl⟩ | ⟨-, rfl⟩ | ⟨-, rfl⟩ | ⟨-, k, -, rfl⟩ |
    ⟨-, c, -, rfl⟩ <;> simp

/-- A command word runs its command, or IllegalCommand (R140). -/
theorem execCmd_cases {w : Word} {s t : State} (h : execCmd w s = .next t) :
    (∃ i, decode w = .ok i ∧ exec i s = .next t) ∨
    (∃ e, decode w = .error e ∧ t = s.signalIllegal) := by
  cases hd : decode w with
  | ok i => rw [execCmd, hd] at h; exact .inl ⟨i, rfl, h⟩
  | error e => rw [execCmd, hd] at h; cases h; exact .inr ⟨e, rfl, rfl⟩

theorem execCmd_next (w : Word) (s : State) : ∃ t, execCmd w s = .next t := by
  cases hd : decode w with
  | ok i => simpa only [execCmd, hd] using exec_next i s
  | error e => exact ⟨_, by rw [execCmd, hd]⟩

theorem execCmd_port_replies {w : Word} {s t : State} (h : execCmd w s = .next t) :
    t.port = s.port ∧ t.replies = s.replies := by
  rcases execCmd_cases h with ⟨i, -, hi⟩ | ⟨e, -, rfl⟩
  · exact exec_port_replies hi
  · exact ⟨rfl, rfl⟩

/-! ### The window, one access, one event, one step -/

/-- The offset of a register leads back to it (R43). -/
theorem regAt_offset (r : Reg) : regAt r.offset = some r := by
  rcases r with _ | _ | _ | _ | _ | _ | _ | j
  case t => revert j; decide
  all_goals rfl

/-- What a legal access is, by its width and offset (R42). -/
theorem legal_iff (a : Access) : a.legal = true ↔ a.width = .w32 ∧ a.off.toNat % 4 = 0 := by
  cases a <;> simp [Access.legal, legalAt, Access.width, Access.off]

/-- CMD stands at offset 0 and nowhere else (R23). -/
theorem regAt_cmd_iff (off : BitVec 6) : regAt off = some .cmd ↔ off = 0x00#6 := by
  revert off; decide

/-- What a legal write does, by its offset: a command at 0, the window's register elsewhere (R147). -/
theorem hostStep_write {w : Width} {off : BitVec 6} {v : Word} (s : State)
    (hl : (Access.write w off v).legal = true) :
    hostStep (.write w off v) s =
      if off = 0x00#6 then onNext (State.answer (.write w off v) .okay 0#32) (execCmd v s)
      else .next ((writeWindow off v s).answer (.write w off v) .okay 0#32) := by
  simp only [hostStep, hl, if_true]
  by_cases ho : off = 0x00#6
  · rw [(regAt_cmd_iff off).mpr ho, if_pos ho]
  · rw [if_neg ho]
    split
    · rename_i hr; exact absurd ((regAt_cmd_iff off).mp hr) ho
    · rfl

/-- A window write touches neither STATUS nor the port nor the replies (R45). -/
theorem writeWindow_frame (off : BitVec 6) (v : Word) (s : State) :
    (writeWindow off v s).err = s.err ∧ (writeWindow off v s).ill = s.ill ∧
    (writeWindow off v s).cause = s.cause ∧ (writeWindow off v s).port = s.port ∧
    (writeWindow off v s).replies = s.replies := by
  unfold writeWindow; split <;> simp

/-- Everything one host access can do (R147): turned away with BUS_ERROR, read, run a command, or write a
register. -/
theorem hostStep_cases {a : Access} {s t : State} (h : hostStep a s = .next t) :
    (a.legal = false ∧ t = s.answer a .busError 0#32) ∨
    (∃ w off, a = .read w off ∧ a.legal = true ∧ t = s.answer a .okay (readWindow off s)) ∨
    (∃ w v u, a = .write w 0x00#6 v ∧ a.legal = true ∧ execCmd v s = .next u ∧
      t = u.answer a .okay 0#32) ∨
    (∃ w off v, a = .write w off v ∧ a.legal = true ∧ off ≠ 0x00#6 ∧
      t = (writeWindow off v s).answer a .okay 0#32) := by
  cases hl : a.legal with
  | false => simp only [hostStep, hl] at h; cases h; exact .inl ⟨rfl, rfl⟩
  | true =>
    cases a with
    | read w off =>
      simp only [hostStep, hl, if_true] at h
      cases h; exact .inr (.inl ⟨w, off, rfl, rfl, rfl⟩)
    | write w off v =>
      rw [hostStep_write s hl] at h
      by_cases ho : off = 0x00#6
      · subst ho
        obtain ⟨u, hu⟩ := execCmd_next v s
        rw [if_pos rfl, hu, onNext_next] at h
        cases h
        exact .inr (.inr (.inl ⟨w, v, u, rfl, rfl, hu, rfl⟩))
      · rw [if_neg ho] at h
        cases h
        exact .inr (.inr (.inr ⟨w, off, v, rfl, rfl, ho, rfl⟩))

theorem hostStep_next (a : Access) (s : State) : ∃ t, hostStep a s = .next t := by
  cases hl : a.legal with
  | false => exact ⟨_, by simp only [hostStep, hl]; rfl⟩
  | true =>
    cases a with
    | read w off => exact ⟨_, by simp only [hostStep, hl, if_true]; rfl⟩
    | write w off v =>
      rw [hostStep_write s hl]
      split
      · obtain ⟨u, hu⟩ := execCmd_next v s
        exact ⟨_, by rw [hu]; rfl⟩
      · exact ⟨_, rfl⟩

/-- One access leaves the port as it is and adds exactly one reply, its own (R47). -/
theorem hostStep_port_replies {a : Access} {s t : State} (h : hostStep a s = .next t) :
    t.port = s.port ∧ ∃ r d, t.replies = s.replies ++ [⟨a, r, d⟩] := by
  rcases hostStep_cases h with ⟨-, rfl⟩ | ⟨w, off, -, -, rfl⟩ | ⟨w, v, u, -, -, hu, rfl⟩ |
    ⟨w, off, v, -, -, -, rfl⟩
  · exact ⟨rfl, _, _, rfl⟩
  · exact ⟨rfl, _, _, rfl⟩
  · obtain ⟨hp, hr⟩ := execCmd_port_replies hu
    exact ⟨hp, _, _, by rw [State.answer_replies, hr]⟩
  · obtain ⟨-, -, -, hp, hr⟩ := writeWindow_frame off v s
    exact ⟨hp, _, _, by rw [State.answer_replies, hr]⟩

/-- Everything a step can do: nothing, a reset, or one host access. -/
theorem step_cases {s t : State} (h : step s = .next t) :
    (s.port = [] ∧ t = s) ∨
    (∃ es, s.port = .reset :: es ∧ t = { State.reset with port := es, replies := s.replies }) ∨
    (∃ a es, s.port = .access a :: es ∧ hostStep a { s with port := es } = .next t) := by
  unfold step at h
  cases hp : s.port with
  | nil => rw [hp] at h; cases h; exact .inl ⟨rfl, rfl⟩
  | cons e es =>
    rw [hp] at h
    cases e with
    | reset => cases h; exact .inr (.inl ⟨es, rfl, rfl⟩)
    | access a => exact .inr (.inr ⟨a, es, rfl, h⟩)

theorem step_nil {s : State} (h : s.port = []) : step s = .next s := by
  rw [step, h]

theorem step_access {s : State} {a : Access} {es : List Event} (h : s.port = .access a :: es) :
    step s = hostStep a { s with port := es } := by
  rw [step, h]; rfl

theorem step_reset {s : State} {es : List Event} (h : s.port = .reset :: es) :
    step s = .next { State.reset with port := es, replies := s.replies } := by
  rw [step, h]; rfl

end Sys2Proof.Machine
end

