-- ==== Sys2Proof/Laws/PerInstr.lean ====
section
/-! SUPPORT. Facts stated per instruction: the family DecodeEncode. -/

namespace Sys2Proof.Laws

/-- An instruction's command word is legal, and decodes to that instruction. -/
def DecodeEncode.Statement (i : Instr) : Prop :=
  (CmdWord.ofWord (encode i)).wf = true ∧ decode (encode i) = .ok i

theorem DecodeEncode.nop : DecodeEncode.Statement .nop := by
  constructor <;> decide

theorem DecodeEncode.enc : DecodeEncode.Statement .enc := by
  constructor <;> decide

theorem DecodeEncode.encu : DecodeEncode.Statement .encu := by
  constructor <;> decide

theorem DecodeEncode.dec : DecodeEncode.Statement .dec := by
  constructor <;> decide

theorem DecodeEncode.fmt : DecodeEncode.Statement .fmt := by
  constructor <;> decide

theorem DecodeEncode.prs : DecodeEncode.Statement .prs := by
  constructor <;> decide

end Sys2Proof.Laws
end

