-- ==== Sys2Proof/Laws/Text.lean ====
section
/-! SUPPORT. Lemmas about the core functions: the value of a packed code, the nibbles of Format, the segments of
Split, and what one segment of Parse can give. -/

namespace Sys2Proof.Machine

/-! ### Packed codes -/

/-- The masked packer as a sum of shifted fields (R80, R84). -/
theorem packMasked_toNat (s c u : Word) :
    (packMasked s c u).toNat =
      s.toNat % 2 ^ 12 * 2 ^ 20 + c.toNat % 2 ^ 8 * 2 ^ 12 + u.toNat % 2 ^ 12 := by
  have hc := (c.extractLsb' 0 8).isLt
  have hu := (u.extractLsb' 0 12).isLt
  rw [packMasked, BitVec.toNat_append, ← Nat.shiftLeft_add_eq_or_of_lt hu, Nat.shiftLeft_eq,
    BitVec.toNat_append, ← Nat.shiftLeft_add_eq_or_of_lt hc, Nat.shiftLeft_eq]
  simp only [BitVec.extractLsb'_toNat, Nat.shiftRight_zero]
  omega

theorem serviceField_toNat (k : Word) : (serviceField k).toNat = k.toNat / 2 ^ 20 := by
  have := k.isLt
  simp [serviceField, Nat.shiftRight_eq_div_pow]
  omega

theorem categoryField_toNat (k : Word) : (categoryField k).toNat = k.toNat / 2 ^ 12 % 2 ^ 8 := by
  simp [categoryField, Nat.shiftRight_eq_div_pow]

theorem subcodeField_toNat (k : Word) : (subcodeField k).toNat = k.toNat % 2 ^ 12 := by
  simp [subcodeField]

/-! ### Format -/

/-- A slice of a slice is a slice of the whole word. -/
theorem extractLsb'_extractLsb' (k : Word) (a b c : Nat) (h : c + 4 ≤ b) :
    (k.extractLsb' a b).extractLsb' c 4 = k.extractLsb' (a + c) 4 := by
  apply BitVec.eq_of_getElem_eq
  intro i hi
  simp only [BitVec.getElem_extractLsb', BitVec.getLsbD_extractLsb']
  rw [Nat.add_assoc, decide_eq_true (show c + i < b by omega), Bool.true_and]

/-- The bytes of the text: the eight nibbles of the code from the most significant, with the separators after
the third and the fifth (R113). -/
theorem format_nibbles (k : Word) :
    format k =
      [hexDigit (k.extractLsb' 28 4), hexDigit (k.extractLsb' 24 4), hexDigit (k.extractLsb' 20 4), dot,
        hexDigit (k.extractLsb' 16 4), hexDigit (k.extractLsb' 12 4), dot,
        hexDigit (k.extractLsb' 8 4), hexDigit (k.extractLsb' 4 4), hexDigit (k.extractLsb' 0 4)] := by
  simp only [format, hexGroup, serviceField, categoryField, subcodeField, List.range, List.range.loop,
    List.map, List.cons_append, List.nil_append]
  norm_num [extractLsb'_extractLsb']

theorem format_length (k : Word) : (format k).length = 10 := by
  rw [format_nibbles]; rfl

theorem hexValue_hexDigit (n : BitVec 4) : hexValue (hexDigit n) = some n.toNat := by
  revert n; decide

theorem hexDigit_ne_dot (n : BitVec 4) : hexDigit n ≠ dot := by
  revert n; decide

/-! ### Split -/

theorem split_of_not_mem {g : List Byte} (h : dot ∉ g) : split g = [g] := by
  induction g with
  | nil => rfl
  | cons b g ih =>
    simp only [List.mem_cons, not_or] at h
    rw [split, if_neg (Ne.symm h.1), ih h.2]

/-- The first separator ends the first segment (R116). -/
theorem split_append {g : List Byte} (r : List Byte) (h : dot ∉ g) :
    split (g ++ dot :: r) = g :: split r := by
  induction g with
  | nil => simp [split]
  | cons b g ih =>
    simp only [List.mem_cons, not_or] at h
    rw [List.cons_append, split, if_neg (Ne.symm h.1), ih h.2]

theorem split_ne_nil (s : List Byte) : split s ≠ [] := by
  cases s with
  | nil => simp [split]
  | cons b s =>
    rw [split]
    split
    · simp
    · split <;> simp

/-! ### Segments -/

theorem hexValue_dot : hexValue dot = none := by decide

/-- A segment with a value is not empty, and its bytes have the digit values the numeral is made of (R117). -/
theorem segValue_eq_some {g : List Byte} {v : Nat} (h : segValue g = some v) :
    g ≠ [] ∧ ∃ ds, g.mapM hexValue = some ds ∧ numeral ds = v := by
  unfold segValue at h
  split at h
  · cases h
  · rename_i hg
    obtain ⟨ds, hd, hv⟩ := Option.map_eq_some_iff.mp h
    exact ⟨hg, ds, hd, hv⟩

/-- A segment with a value holds no separator. -/
theorem dot_not_mem_of_segValue {g : List Byte} {v : Nat} (h : segValue g = some v) : dot ∉ g := by
  obtain ⟨-, ds, hd, -⟩ := segValue_eq_some h
  clear h
  induction g generalizing ds with
  | nil => simp
  | cons b g ih =>
    simp only [List.mapM_cons] at hd
    cases hb : hexValue b with
    | none => simp [hb] at hd
    | some d =>
      cases hg : g.mapM hexValue with
      | none => simp [hb, hg] at hd
      | some es =>
        simp only [List.mem_cons, not_or]
        refine ⟨fun e => ?_, ih es hg⟩
        rw [← e, hexValue_dot] at hb
        cases hb

/-- What one round of Parse's loop gives: NOT_HEX, FIELD_RANGE, or the segment's value (R118). -/
theorem fieldValue_ok_iff {w : Nat} {g : List Byte} {v : Nat} :
    fieldValue w g = .ok v ↔ segValue g = some v ∧ v < 2 ^ w := by
  unfold fieldValue
  cases hs : segValue g with
  | none => simp
  | some x =>
    by_cases hx : x ≥ 2 ^ w
    · simp only [hx, if_true, reduceCtorEq, Option.some.injEq, false_iff, not_and, not_lt]
      rintro rfl; exact hx
    · simp only [hx, if_false, Except.ok.injEq, Option.some.injEq]
      constructor
      · rintro rfl; exact ⟨rfl, by omega⟩
      · exact fun h => h.1

theorem fieldValue_notHex {g : List Byte} (w : Nat) (h : segValue g = none) :
    fieldValue w g = .error .notHex := by
  rw [fieldValue, h]

theorem fieldValue_range {w : Nat} {g : List Byte} {v : Nat} (h : segValue g = some v) (hv : 2 ^ w ≤ v) :
    fieldValue w g = .error .fieldRange := by
  simp only [fieldValue, h, ge_iff_le, hv, if_true]

theorem fieldValue_error {w : Nat} {g : List Byte} {c : Cause} (h : fieldValue w g = .error c) :
    (c = .notHex ∧ segValue g = none) ∨ (c = .fieldRange ∧ ∃ v, segValue g = some v ∧ 2 ^ w ≤ v) := by
  unfold fieldValue at h
  cases hs : segValue g with
  | none => rw [hs] at h; cases h; exact .inl ⟨rfl, rfl⟩
  | some v =>
    rw [hs] at h
    by_cases hx : v ≥ 2 ^ w
    · simp only [hx, if_true, Except.error.injEq] at h
      exact .inr ⟨h.symm, v, rfl, hx⟩
    · simp only [hx, if_false, reduceCtorEq] at h

/-- Three segments without a separator, within the buffer: Parse is its loop over them (R118). -/
theorem parse_of_three {t : Vector Byte 16} {n : Nat} {a b c : List Byte} (hn : n ≤ 16)
    (h : bufPrefix t n = a ++ [dot] ++ b ++ [dot] ++ c)
    (ha : dot ∉ a) (hb : dot ∉ b) (hc : dot ∉ c) : parse t n = parseFields a b c := by
  have hs : split (bufPrefix t n) = [a, b, c] := by
    rw [h, show a ++ [dot] ++ b ++ [dot] ++ c = a ++ dot :: (b ++ dot :: c) by simp,
      split_append _ ha, split_append _ hb, split_of_not_mem hc]
  rw [parse, if_neg (by simpa using hn), hs]

/-- The loop succeeds exactly when every segment has a value that fits its field (R118). -/
theorem parseFields_ok_iff {a b c : List Byte} {k : Word} :
    parseFields a b c = .ok k ↔
      ∃ va vb vc, fieldValue 12 a = .ok va ∧ fieldValue 8 b = .ok vb ∧ fieldValue 12 c = .ok vc ∧
        k = packMasked (BitVec.ofNat 32 va) (BitVec.ofNat 32 vb) (BitVec.ofNat 32 vc) := by
  simp only [parseFields, Config.svcW, Config.catW, Config.subW]
  constructor
  · intro h
    split at h
    · cases h
    · split at h
      · cases h
      · split at h
        · cases h
        · rename_i va ha _ vb hb _ vc hc
          exact ⟨va, vb, vc, ha, hb, hc, (Except.ok.inj h).symm⟩
  · rintro ⟨va, vb, vc, ha, hb, hc, rfl⟩
    simp [ha, hb, hc]

/-- Parse never fails without a cause (R29, R127). -/
theorem parse_error_ne_none {t : Vector Byte 16} {n : Nat} {c : Cause} (h : parse t n = .error c) :
    c ≠ .none := by
  have field : ∀ {w g}, fieldValue w g = .error c → c ≠ .none := by
    intro w g hf
    rcases fieldValue_error hf with ⟨rfl, -⟩ | ⟨rfl, -⟩ <;> simp
  unfold parse at h
  split at h
  · cases h; simp
  · split at h
    · unfold parseFields at h
      split at h
      · rename_i hf; cases h; exact field hf
      · split at h
        · rename_i hf; cases h; exact field hf
        · split at h
          · rename_i hf; cases h; exact field hf
          · cases h
    · cases h; simp

end Sys2Proof.Machine
end

