-- ==== Sys2Proof/Tests/Slice0.lean ====
section
/-! SUPPORT. Small tests, each on one step or one function, with expected values from the spec's own tables
(spec/95_test_vectors.md and the examples of the rules), and the witnesses of the statements' hypotheses. -/

namespace Sys2Proof.Tests

open Sys2Proof.Machine

/-! ### Helpers -/

/-- The state of a next outcome. -/
def nextOf : Host.Outcome State Fault Refusal → Option State
  | .next s => some s
  | .fault _ => none
  | .refused _ => none

/-- The bytes of ASCII text. -/
def ascii (text : String) : List Byte := text.toList.map fun c => BitVec.ofNat 8 c.toNat

/-- After reset, with a text in T and its length in TLEN, and a K to be left alone. -/
def withText (text : String) : State :=
  { State.reset with
    k := 0xDEADBEEF#32, t := bufOfBytes (ascii text), tlen := BitVec.ofNat 5 text.toList.length }

/-- After reset, with field registers. -/
def withFields (s c u : Word) : State := { State.reset with fs := s, fc := c, fu := u }

/-- After reset, with one event at the port. -/
def withEvent (e : Event) : State := { State.reset with port := [e] }

/-! ### Well-formedness: an ill-formed term for each check -/

theorem test_wf_rejects_rsv : (CmdWord.mk 1#29 0#3).wf = false ∧ (CmdWord.mk 1#29 0#3).rsvClear = false := by
  decide

theorem test_wf_rejects_op6 : (CmdWord.mk 0#29 6#3).wf = false ∧ (CmdWord.mk 0#29 6#3).opAssigned = false := by
  decide

theorem test_wf_rejects_op7 : (CmdWord.mk 0#29 7#3).wf = false := by decide

theorem test_wf_accepts_prs : (CmdWord.mk 0#29 5#3).wf = true := by decide

theorem test_asm_rejects_misaligned_offset : (Asm.Stmt.wr 0x02 0).wf = false := by decide

theorem test_asm_rejects_offset_outside : (Asm.Stmt.rd 0x40).wf = false := by decide

theorem test_asm_rejects_wide_immediate : (Asm.Stmt.ldk (2 ^ 32)).wf = false := by decide

theorem test_asm_rejects_long_literal : (Asm.Stmt.ldt (List.replicate 17 0x30#8)).wf = false := by decide

/-! ### Decoding: every constructor's word, written bit by bit from R60 and R64 (RSV 31:3, OP 2:0) -/

theorem test_decode_nop : decode 0b00000000000000000000000000000000#32 = .ok .nop := by decide

theorem test_decode_enc : decode 0b00000000000000000000000000000001#32 = .ok .enc := by decide

theorem test_decode_encu : decode 0b00000000000000000000000000000010#32 = .ok .encu := by decide

theorem test_decode_dec : decode 0b00000000000000000000000000000011#32 = .ok .dec := by decide

theorem test_decode_fmt : decode 0b00000000000000000000000000000100#32 = .ok .fmt := by decide

theorem test_decode_prs : decode 0b00000000000000000000000000000101#32 = .ok .prs := by decide

theorem test_decode_op6 : decode 0b00000000000000000000000000000110#32 = .error .opReserved := by decide

theorem test_decode_rsv_bit31 : decode 0b10000000000000000000000000000001#32 = .error .rsvNonzero := by decide

theorem test_decodeTableWord_dec : decodeTableWord 32 3 = some .dec := by decide

/-! ### The commands, at the values of the rules' examples and of spec/95_test_vectors.md §2 -/

/-- R142's example: STATUS 0x31 before NOP gives 0. -/
theorem test_nop_clears_status :
    (nextOf (exec .nop { State.reset with err := true, cause := .notHex })).map State.status = some 0x00#32 := by
  decide

/-- R90's example. -/
theorem test_enc_drops_excess_bits :
    (nextOf (exec .enc (withFields 1234 189 4321))).map State.k = some 0x4D2BD0E1#32 := by decide

/-- 95 §2.1: FU = 0xFFFFFFFF does not flood the other fields. -/
theorem test_enc_masks_subcode :
    (nextOf (exec .enc (withFields 0 0 0xFFFFFFFF))).map State.k = some 0x00000FFF#32 := by decide

/-- R95's example. -/
theorem test_encu_spills_into_category :
    (nextOf (exec .encu (withFields 0x123 0x45 0x6789A))).map State.k = some 0x1236789A#32 := by decide

/-- 95 §2.1: FS = 0x1000 is shifted past bit 31. -/
theorem test_encu_loses_service_excess :
    (nextOf (exec .encu (withFields 0x1000 0 0))).map State.k = some 0x00000000#32 := by decide

/-- R100's example, with old bits above the field in FS. -/
theorem test_dec_overwrites_fields :
    (nextOf (exec .dec { State.reset with k := 0x4D2BD0E1#32, fs := 0xFFFFFFFF#32 })).map
      (fun s => (s.fs, s.fc, s.fu)) = some (1234#32, 189#32, 225#32) := by decide

/-- R125's example: the words T0 to T3 read back. -/
theorem test_fmt_words :
    (nextOf (exec .fmt { State.reset with k := 0xF60965E9#32 })).map
      (fun s => (bufWord s.t 0, bufWord s.t 1, bufWord s.t 2, bufWord s.t 3)) =
    some (0x2E303646#32, 0x352E3639#32, 0x00003945#32, 0x00000000#32) := by decide

/-- 95 §2.3: the text of 0xABCDEF01. -/
theorem test_fmt_text :
    (nextOf (exec .fmt { State.reset with k := 0xABCDEF01#32 })).map State.text =
      some (ascii "ABC.DE.F01") := by decide

/-- 95 §2.4: leading zeros, 15 bytes. -/
theorem test_prs_leading_zeros :
    (nextOf (exec .prs (withText "0004D2.0bd.00E1"))).map (fun s => (s.k, s.status)) =
      some (0x4D2BD0E1#32, 0x00#32) := by decide

/-- R155's example: segment 0 fails on its range before segment 1 is examined; K is unchanged. -/
theorem test_prs_range_before_next_segment :
    (nextOf (exec .prs (withText "1000.ZZ.000"))).map (fun s => (s.k, s.status)) =
      some (0xDEADBEEF#32, 0x41#32) := by decide

/-! ### The host port -/

/-- The word placed by `withFetchWord` is what the very next step runs, after reset. -/
theorem test_withFetchWord_prs :
    (nextOf (step (State.reset.withFetchWord 32 5))).map (fun s => (s.status, s.port)) =
      some (0x21#32, []) := by decide

/-- 95 §2.5: an illegal word sets ILL and runs no ENC. -/
theorem test_illegal_word :
    (nextOf (step (withEvent (.access (cmdWrite 0x80000001#32))))).map (fun s => (s.status, s.replies)) =
      some (0x02#32, [⟨cmdWrite 0x80000001#32, .okay, 0#32⟩]) := by decide

/-- 95 §2.6: a write of 0x25 to TLEN stores 5. -/
theorem test_tlen_keeps_five_bits :
    (nextOf (step (withEvent (.access (.write .w32 0x1C#6 0x25#32))))).map State.tlen = some 5#5 := by decide

/-- R46's example: "4D2." in T[0..3] reads from T0 as 0x2E324434. -/
theorem test_t0_is_little_endian :
    readWindow 0x20#6 (withText "4D2.") = 0x2E324434#32 := by decide

/-- 95 §2.6: an 8-bit write to CMD gets BUS_ERROR and runs no command. -/
theorem test_narrow_write_is_bus_error :
    nextOf (step (withEvent (.access (.write .w8 0x00#6 6#32)))) =
      some { State.reset with replies := [⟨.write .w8 0x00#6 6#32, .busError, 0#32⟩] } := by decide

/-- A line of 95 program P3, with its label and comment. -/
theorem test_assemble_ldt :
    Asm.assembleLine "l1: LDT \"12.34\" ; wrong segment count".toList =
      some [.write .w32 0x20#6 0x332E3231#32, .write .w32 0x24#6 0x00000034#32,
        .write .w32 0x28#6 0#32, .write .w32 0x2C#6 0#32, .write .w32 0x1C#6 5#32] := by decide

/-! ### Witnesses: concrete states and operands that meet each statement's hypotheses together -/

theorem witness_DecoderIsTotalAndExact :
    (8#32 : Word).toNat / 8 ≠ 0 ∧ (0xFFFFFFFF#32 : Word).toNat / 8 ≠ 0 ∧ (0#32 : Word).toNat = 0 ∧
    (1#32 : Word).toNat = 1 ∧ (2#32 : Word).toNat = 2 ∧ (3#32 : Word).toNat = 3 ∧ (4#32 : Word).toNat = 4 ∧
    (5#32 : Word).toNat = 5 ∧ (6#32 : Word).toNat = 6 ∧ (7#32 : Word).toNat = 7 := by decide

theorem witness_DecodeEncodeAgree : Instr.encu.wf = true ∧ 2 < 2 ^ 32 := by decide

theorem witness_StepRunsTheDecodedCommand :
    (withEvent (.access (.write .w32 0x00#6 1#32))).port = .access (.write .w32 0x00#6 1#32) :: [] ∧
    decode 1#32 = .ok .enc := by decide

theorem witness_IllegalWordSetsIllOnly :
    (8#32 : Word).toNat / 8 ≠ 0 ∧ (6#32 : Word).toNat = 6 ∧ (7#32 : Word).toNat = 7 ∧
    (withEvent (.access (.write .w32 0x00#6 8#32))).port = .access (.write .w32 0x00#6 8#32) :: [] ∧
    (withEvent (.access (.write .w32 0x00#6 6#32))).port = .access (.write .w32 0x00#6 6#32) :: [] ∧
    (withEvent (.access (.write .w32 0x00#6 7#32))).port = .access (.write .w32 0x00#6 7#32) :: [] := by decide

theorem witness_PrsWritesParsedCode :
    (withText "00000000FFF.FF.F").tlen.toNat ≤ 16 ∧
    (withText "00000000FFF.FF.F").text =
      ascii "00000000FFF" ++ [0x2E#8] ++ ascii "FF" ++ [0x2E#8] ++ ascii "F" ∧
    segValue (ascii "00000000FFF") = some 0xFFF ∧ segValue (ascii "FF") = some 0xFF ∧
    segValue (ascii "F") = some 0xF ∧ 0xFFF < 2 ^ 12 ∧ 0xFF < 2 ^ 8 ∧ 0xF < 2 ^ 12 := by decide

/-- Both cases of the conclusion occur. -/
theorem witness_PrsAlwaysCompletes :
    (nextOf (exec .prs (withText "1.2.3"))).map State.err = some false ∧
    (nextOf (exec .prs (withText "Z.Z"))).map State.err = some true := by decide

theorem witness_PrsLengthCause :
    16 < ({ State.reset with tlen := 17#5 } : State).tlen.toNat ∧
    16 < ({ State.reset with tlen := 31#5 } : State).tlen.toNat := by decide

theorem witness_PrsSegmentCountCause :
    State.reset.tlen.toNat ≤ 16 ∧ State.reset.text.count 0x2E#8 ≠ 2 ∧
    (withText "FFF.FF.FFF......").tlen.toNat ≤ 16 ∧
    (withText "FFF.FF.FFF......").text.count 0x2E#8 ≠ 2 := by decide

/-- The shared hypotheses at one string for each clause: NOT_HEX then FIELD_RANGE, for each segment in turn, at the
least value out of range, the segments before at their greatest in range. -/
theorem witness_PrsSegmentCausesInOrder :
    ((withText "..").text = [] ++ [0x2E#8] ++ [] ++ [0x2E#8] ++ [] ∧ segValue [] = none) ∧
    ((withText "1000.0.0").text = ascii "1000" ++ [0x2E#8] ++ ascii "0" ++ [0x2E#8] ++ ascii "0" ∧
      segValue (ascii "1000") = some 4096 ∧ 2 ^ 12 ≤ 4096) ∧
    ((withText "FFF..0").text = ascii "FFF" ++ [0x2E#8] ++ [] ++ [0x2E#8] ++ ascii "0" ∧
      segValue (ascii "FFF") = some 4095 ∧ 4095 < 2 ^ 12) ∧
    ((withText "FFF.100.0").text = ascii "FFF" ++ [0x2E#8] ++ ascii "100" ++ [0x2E#8] ++ ascii "0" ∧
      segValue (ascii "100") = some 256 ∧ 2 ^ 8 ≤ 256) ∧
    ((withText "FFF.FF.G").text = ascii "FFF" ++ [0x2E#8] ++ ascii "FF" ++ [0x2E#8] ++ ascii "G" ∧
      segValue (ascii "FF") = some 255 ∧ 255 < 2 ^ 8 ∧ segValue (ascii "G") = none) ∧
    ((withText "FFF.FF.1000").text = ascii "FFF" ++ [0x2E#8] ++ ascii "FF" ++ [0x2E#8] ++ ascii "1000" ∧
      (withText "FFF.FF.1000").tlen.toNat ≤ 16 ∧ 0x2E#8 ∉ ascii "FFF" ∧ 0x2E#8 ∉ ascii "FF" ∧
      0x2E#8 ∉ ascii "1000") := by decide

theorem witness_EveryCommandWritesAllOfStatus :
    decode 4#32 = .ok .fmt ∧ Instr.fmt ≠ .prs ∧ decode 5#32 = .ok .prs ∧ decode 6#32 = .error .opReserved := by
  decide

theorem witness_EveryCommandIsIdempotent :
    execCmd 0x00000006#32 State.reset = .next { State.reset with ill := true } ∧
    execCmd 0x00000001#32 (withFields 1 1 1) =
      .next { withFields 1 1 1 with k := 0x00101001#32 } := ⟨rfl, rfl⟩

/-- Two states that agree on the operands of each command and differ elsewhere. -/
theorem witness_CommandsReadOnlyTheirOperands :
    ((withFields 1 2 3).fs = ({ withFields 1 2 3 with k := 7 } : State).fs ∧
      (withFields 1 2 3).fc = ({ withFields 1 2 3 with k := 7 } : State).fc ∧
      (withFields 1 2 3).fu = ({ withFields 1 2 3 with k := 7 } : State).fu) ∧
    (withFields 1 2 3).k = State.reset.k ∧
    ({ State.reset with t := bufOfBytes (ascii "1.2.3"), tlen := 5#5 } : State).tlen =
      ({ State.reset with t := bufOfBytes (ascii "1.2.3ZZ"), tlen := 5#5 } : State).tlen ∧
    ({ State.reset with t := bufOfBytes (ascii "1.2.3"), tlen := 5#5 } : State).text =
      ({ State.reset with t := bufOfBytes (ascii "1.2.3ZZ"), tlen := 5#5 } : State).text := by decide

theorem witness_PackersInRange :
    (4095#32 : Word).toNat < 2 ^ 12 ∧ (255#32 : Word).toNat < 2 ^ 8 ∧ (4095#32 : Word).toNat < 2 ^ 12 := by decide

/-- The range ends of every clause. -/
theorem witness_HexDigitsAndValues :
    hexValue 0x2F#8 = none ∧ hexValue 0x30#8 = some 0 ∧ hexValue 0x39#8 = some 9 ∧ hexValue 0x3A#8 = none ∧
    hexValue 0x40#8 = none ∧ hexValue 0x41#8 = some 10 ∧ hexValue 0x46#8 = some 15 ∧ hexValue 0x47#8 = none ∧
    hexValue 0x60#8 = none ∧ hexValue 0x61#8 = some 10 ∧ hexValue 0x66#8 = some 15 ∧ hexValue 0x67#8 = none ∧
    hexValue 0xFF#8 = none := by decide

theorem witness_FormatShapeAndInjective :
    7 < 8 ∧ (0x80000000#32 : Word).extractLsb' (4 * 7) 4 ≠ (0x00000000#32 : Word).extractLsb' (4 * 7) 4 := by decide

theorem witness_SegmentValueIsPositional : segValue (ascii "0004d2") = some 1234 ∧ segValue [] = none := by decide

theorem witness_ParseAcceptsExactly :
    (match parse (bufOfBytes (ascii "1.2.3")) 5 with | .ok k => decide (k = 0x00102003#32) | .error _ => false) =
      true := by decide

theorem witness_CaseAndLeadingZeros : ascii "4d2" ≠ [] := by decide

theorem witness_ParseOfFormat :
    bufPrefix (bufOfBytes (format 0x12345678#32 ++ ascii "AAAAAA")) 10 = format 0x12345678#32 ∧
    bufPrefix (bufOfBytes (format (packMasked 4095 255 4095))) 10 = format (packMasked 4095 255 4095) := by decide

/-- An accepted text that is canonical, and one that is not. -/
theorem witness_FormatOfParseIsCanonical :
    (match parse (bufOfBytes (ascii "4D2.BD.0E1")) 10 with | .ok _ => true | .error _ => false) = true ∧
    isCanonical (ascii "4D2.BD.0E1") = true ∧
    (match parse (bufOfBytes (ascii "4d2.bd.0e1")) 10 with | .ok _ => true | .error _ => false) = true ∧
    isCanonical (ascii "4d2.bd.0e1") = false := by decide

theorem witness_FieldIsolation :
    (0#32 : Word).toNat < 2 ^ 12 ∧ (4095#32 : Word).toNat < 2 ^ 12 ∧ (0#32 : Word).toNat < 2 ^ 8 ∧
    (255#32 : Word).toNat < 2 ^ 8 := by decide

theorem witness_IllegalAccessHasNoEffect :
    (Access.read .w16 0x08#6).width ≠ .w32 ∧ (Access.write .w32 0x02#6 1#32).off.toNat % 4 ≠ 0 ∧
    (withEvent (.access (.read .w16 0x08#6))).port = .access (.read .w16 0x08#6) :: [] := by decide

theorem witness_LegalReads :
    (0x04#6, State.reset.status) ∈ [(0x04#6, State.reset.status)] ∧
    (withEvent (.access (.read .w32 0x04#6))).port = .access (.read .w32 0x04#6) :: [] ∧
    (withEvent (.access (.read .w32 0x3C#6))).port = .access (.read .w32 0x3C#6) :: [] := by decide

theorem witness_IgnoredWrites :
    (0x04#6 : BitVec 6) ∈ [0x04#6, 0x18#6, 0x30#6, 0x34#6, 0x38#6, 0x3C#6] ∧
    (withEvent (.access (.write .w32 0x04#6 0xFFFFFFFF#32))).port =
      .access (.write .w32 0x04#6 0xFFFFFFFF#32) :: [] := by decide

theorem witness_RegisterWrites :
    (withEvent (.access (.write .w32 0x08#6 7#32))).port = .access (.write .w32 0x08#6 7#32) :: [] ∧
    (withEvent (.access (.write .w32 0x1C#6 0x25#32))).port = .access (.write .w32 0x1C#6 0x25#32) :: [] := by decide

theorem witness_BufferWords :
    (withEvent (.access (.write .w32 0x2C#6 7#32))).port =
      .access (.write .w32 (BitVec.ofNat 6 (0x20 + 4 * (3 : Fin 4).val)) 7#32) :: [] ∧
    (withEvent (.access (.read .w32 0x20#6))).port =
      .access (.read .w32 (BitVec.ofNat 6 (0x20 + 4 * (0 : Fin 4).val))) :: [] := by decide

/-- A register written and read back, TLEN, another register, and an offset with none. -/
theorem witness_ReadAfterWindowWrite :
    (0x2C#6 : BitVec 6).toNat % 4 = 0 ∧ (0x1C#6 : BitVec 6).toNat % 4 = 0 ∧ (0x3C#6 : BitVec 6).toNat % 4 = 0 ∧
    (0x2C#6 : BitVec 6) ≠ 0x00#6 ∧ (0x1C#6 : BitVec 6) ≠ 0x00#6 ∧ (0x3C#6 : BitVec 6) ≠ 0x00#6 := by decide

theorem witness_ResetEvent : (withEvent .reset).port = .reset :: [] := by decide

theorem witness_IdleBlock : State.reset.port = [] := by decide

/-- Two states with the same registers and port, and different replies. -/
theorem witness_StepIsTotalOnTheRegisters :
    (withEvent .reset).SameRegisters { withEvent .reset with replies := [⟨.read .w32 0x08#6, .okay, 0#32⟩] } ∧
    (withEvent .reset).port =
      ({ withEvent .reset with replies := [⟨.read .w32 0x08#6, .okay, 0#32⟩] } : State).port := by decide

theorem witness_StepKeepsInvariant :
    (withEvent (.access (.read .w32 0x04#6))).Inv ∧
    step (withEvent (.access (.read .w32 0x04#6))) =
      .next { State.reset with replies := [⟨.read .w32 0x04#6, .okay, 0#32⟩] } :=
  ⟨by decide, rfl⟩

theorem witness_AlignedHost :
    (withEvent (.access (cmdWrite 6#32))).HostAligned ∧ (withEvent (.access (cmdWrite 6#32))).NoBusError ∧
    step (withEvent (.access (cmdWrite 6#32))) =
      .next { State.reset with ill := true, replies := [⟨cmdWrite 6#32, .okay, 0#32⟩] } :=
  ⟨by decide, by decide, rfl⟩

theorem witness_RegistersChange :
    (withEvent (.access (.write .w32 0x08#6 7#32))).port = .access (.write .w32 0x08#6 7#32) :: [] ∧
    step (withEvent (.access (.write .w32 0x08#6 7#32))) =
      .next { State.reset with k := 7#32, replies := [⟨.write .w32 0x08#6 7#32, .okay, 0#32⟩] } ∧
    Event.access (.write .w32 0x08#6 7#32) ≠ .reset :=
  ⟨rfl, rfl, by decide⟩

theorem witness_ConditionsHaveOneSource :
    step (withEvent (.access (cmdWrite 5#32))) =
      .next { State.reset with
        err := true, cause := .segmentCount,
        replies := [⟨cmdWrite 5#32, .okay, 0#32⟩] } ∧
    step (withEvent (.access (cmdWrite 6#32))) =
      .next { State.reset with ill := true, replies := [⟨cmdWrite 6#32, .okay, 0#32⟩] } :=
  ⟨rfl, rfl⟩

/-- The first and last address of a window, and the two just outside it. -/
theorem witness_BusRoutes :
    0x1000 % 64 = 0 ∧ (BusAccess.read .w32 0x1000).route 0x1000 = some (.read .w32 0x00#6) ∧
    (BusAccess.read .w32 0x103C).route 0x1000 = some (.read .w32 0x3C#6) ∧
    (BusAccess.read .w32 0x1040).route 0x1000 = none ∧ (BusAccess.read .w32 0x0FFC).route 0x1000 = none := by decide

/-- The greatest number taken and the least rejected, in each place; and literals of 0, 5 and 16 bytes, each with
its `B`, and one of 17. -/
theorem witness_PseudoInstructions :
    (2 ^ 32 - 1 < 2 ^ 32 ∧ 2 ^ 32 ≤ 2 ^ 32) ∧
    (∀ text ∈ ["", "12.34", "00000000FFF.FF.F"],
      (ascii text).length ≤ 16 ∧
      (∀ i, i < (ascii text).length → (ascii text)[i]? = some ((ascii text).getD i 0x00#8)) ∧
      ∀ i, i < 16 → (ascii text).length ≤ i → (ascii text).getD i 0x00#8 = 0x00#8) ∧
    16 < (List.replicate 17 0x30#8).length := by decide

/-- The boundary values of each clause: the ends of the offsets, offsets past the end and between words, and the
greatest number taken and the least rejected. -/
theorem witness_RawStatements :
    (0x00 ≤ 0x3C ∧ 0x00 % 4 = 0) ∧ (0x3C ≤ 0x3C ∧ 0x3C % 4 = 0) ∧ 0x3C < 0x40 ∧ 0x3C < 0x3D ∧ 0x3B % 4 ≠ 0 ∧
    2 ^ 32 - 1 < 2 ^ 32 ∧ 2 ^ 32 ≤ 2 ^ 32 := by decide

/-- `wr` at the last offset, and one past it (R67). -/
theorem test_raw_statement_range :
    (Asm.Stmt.wr 0x3C (2 ^ 32 - 1)).assemble = some [.write .w32 0x3C#6 0xFFFFFFFF#32] ∧
    (Asm.Stmt.wr 0x40 0).assemble = none := by decide

theorem witness_AssembledAccesses :
    Asm.assemble ["wr 0x1C, 0x25".toList, "rd 28 ; TLEN".toList] =
      some [.write .w32 0x1C#6 0x25#32, .read .w32 0x1C#6] := by decide

/-- The longest and the shortest literal. -/
theorem witness_LdtLoads :
    (ascii "00000000FFF.FF.F").length ≤ 16 ∧ (ascii "").length ≤ 16 ∧ State.reset.port = [] := by decide

/-- A literal of 16 bytes leaves TLEN = 16, and no greater value (R69). -/
theorem witness_LdtLoads_sixteen :
    (ascii "00000000FFF.FF.F").length = 16 ∧
    (((Asm.Stmt.ldt (ascii "00000000FFF.FF.F")).assemble.map State.reset.enqueue).bind
        fun s => nextOf (core.run 5 s)).map (fun s => (s.tlen.toNat, s.text)) =
      some (16, ascii "00000000FFF.FF.F") := by decide

end Sys2Proof.Tests
end

