-- ==== Sys2Proof/Proofs/StateRules.lean ====
section
/-! PROOFS. Rules about STATUS, the window and the steps, which the proofs of the family of spec/10_state.md
cite. -/

namespace Sys2Proof.Machine

/-! ### STATUS -/

/-- STATUS reads the three fields and nothing else (R28). -/
theorem State.status_congr {s s' : State} (he : s.err = s'.err) (hi : s.ill = s'.ill)
    (hc : s.cause = s'.cause) : s.status = s'.status := by
  rw [State.status, State.status, he, hi, hc]

@[simp] theorem State.status_clearStatus (s : State) : s.clearStatus.status = 0#32 := by
  simp [State.status, Cause.code]

/-- STATUS as the sum of its shifted fields (R28). -/
theorem State.status_toNat (s : State) :
    s.status.toNat = s.err.toNat + 2 * s.ill.toNat + 16 * s.cause.code.toNat := by
  have he := s.err.toNat_lt
  have hi := s.ill.toNat_lt
  have hc := s.cause.code.isLt
  have append_bit : ∀ (n : Nat) (x : BitVec n) (b : Bool),
      (x ++ BitVec.ofBool b).toNat = 2 * x.toNat + b.toNat := by
    intro n x b
    rw [BitVec.toNat_append, ← Nat.shiftLeft_add_eq_or_of_lt (BitVec.ofBool b).isLt, Nat.shiftLeft_eq,
      BitVec.toNat_ofBool]
    omega
  have append_zeros : (s.cause.code ++ 0b00#2).toNat = 4 * s.cause.code.toNat := by
    rw [BitVec.toNat_append, ← Nat.shiftLeft_add_eq_or_of_lt (0b00#2).isLt, Nat.shiftLeft_eq]
    simp; omega
  rw [State.status, BitVec.toNat_setWidth, append_bit, append_bit, append_zeros]
  omega

/-- The three shapes R29 leaves to STATUS: no condition, ILL alone, or ERR with a cause. -/
theorem State.StatusInv.cases {s : State} (h : s.StatusInv) :
    (s.err = false ∧ s.ill = false ∧ s.cause = .none) ∨ (s.err = false ∧ s.ill = true ∧ s.cause = .none) ∨
      (s.err = true ∧ s.ill = false ∧ s.cause ≠ .none) := by
  obtain ⟨herr, hill⟩ := h
  cases he : s.err with
  | false =>
    have hc : s.cause = .none := by simpa [he] using herr
    cases hi : s.ill <;> simp [hc]
  | true =>
    have hi : s.ill = false := by simpa [he] using hill
    exact .inr (.inr ⟨rfl, hi, herr.mp he⟩)

/-- Under R29, STATUS reads as one of its six values. -/
theorem State.StatusInv.status_mem {s : State} (h : s.StatusInv) : s.status ∈ statusValues := by
  unfold State.status
  rcases h.cases with ⟨he, hi, hc⟩ | ⟨he, hi, hc⟩ | ⟨he, hi, hc⟩
  · rw [he, hi, hc]; decide
  · rw [he, hi, hc]; decide
  · rw [he, hi]
    revert hc
    cases s.cause <;> decide

theorem State.StatusInv.congr {s s' : State} (h : s.StatusInv) (he : s'.err = s.err) (hi : s'.ill = s.ill)
    (hc : s'.cause = s.cause) : s'.StatusInv := by
  unfold State.StatusInv
  rw [he, hi, hc]
  exact h

theorem State.statusInv_clearStatus (s : State) : s.clearStatus.StatusInv := by
  simp [State.StatusInv]

theorem State.statusInv_fail (s : State) {c : Cause} (h : c ≠ .none) : (s.fail c).StatusInv := by
  simp [State.StatusInv, h]

theorem State.statusInv_signalIllegal (s : State) : s.signalIllegal.StatusInv := by
  simp [State.StatusInv]

/-! ### Commands and STATUS -/

theorem execCmd_of_ok {w : Word} {i : Instr} (s : State) (h : decode w = .ok i) : execCmd w s = exec i s := by
  rw [execCmd, h]

theorem execCmd_of_error {w : Word} {e : Illegal} (s : State) (h : decode w = .error e) :
    execCmd w s = .next s.signalIllegal := by
  rw [execCmd, h]

/-- Only PRS sets a condition: every other command leaves STATUS zero (R31). -/
theorem exec_status_of_ne_prs {i : Instr} {s t : State} (h : exec i s = .next t) (hi : i ≠ .prs) :
    t.err = false ∧ t.ill = false ∧ t.cause = .none := by
  cases i with
  | prs => exact absurd rfl hi
  | nop | enc | encu | dec | fmt => cases h; exact ⟨rfl, rfl, rfl⟩

/-- No condition is sticky: a command does not see the STATUS it finds (R31). -/
theorem exec_setStatus (i : Instr) (s : State) (e l : Bool) (c : Cause) :
    exec i (s.setStatus e l c) = exec i s := by
  cases i with
  | prs =>
    cases hp : parse s.t s.tlen.toNat with
    | ok k => rw [exec_prs_ok hp, exec_prs_ok (by simpa using hp)]; rfl
    | error d => rw [exec_prs_error hp, exec_prs_error (by simpa using hp)]; rfl
  | nop | enc | encu | dec | fmt => rfl

theorem execCmd_setStatus (w : Word) (s : State) (e l : Bool) (c : Cause) :
    execCmd w (s.setStatus e l c) = execCmd w s := by
  cases hd : decode w with
  | ok i => rw [execCmd_of_ok _ hd, execCmd_of_ok _ hd, exec_setStatus]
  | error d => rw [execCmd_of_error _ hd, execCmd_of_error _ hd]; rfl

/-- Every command word leaves STATUS in one of the shapes R29 allows. -/
theorem execCmd_statusInv {w : Word} {s t : State} (h : execCmd w s = .next t) : t.StatusInv := by
  rcases execCmd_cases h with ⟨i, -, hi⟩ | ⟨e, -, rfl⟩
  · by_cases hprs : i = .prs
    · subst hprs
      cases hp : parse s.t s.tlen.toNat with
      | ok k =>
        rw [exec_prs_ok hp] at hi
        cases hi
        exact State.statusInv_clearStatus _
      | error c =>
        rw [exec_prs_error hp] at hi
        cases hi
        exact s.statusInv_fail (parse_error_ne_none hp)
    · obtain ⟨he, hl, hc⟩ := exec_status_of_ne_prs hi hprs
      exact (State.statusInv_clearStatus t).congr he hl hc
  · exact s.statusInv_signalIllegal

/-! ### What a command does not see: the host's side of the state -/

/-- A command acts on the registers alone: on another port and other replies it does the same (R35, R147). -/
theorem exec_port_replies_irrelevant (i : Instr) (s : State) (p : List Event) (q : List Reply) :
    exec i { s with port := p, replies := q } =
      onNext (fun t => { t with port := p, replies := q }) (exec i s) := by
  cases i with
  | prs =>
    cases hp : parse s.t s.tlen.toNat with
    | ok k => rw [exec_prs_ok hp, exec_prs_ok (s := { s with port := p, replies := q }) hp]; rfl
    | error c => rw [exec_prs_error hp, exec_prs_error (s := { s with port := p, replies := q }) hp]; rfl
  | nop | enc | encu | dec | fmt => rfl

theorem execCmd_port_replies_irrelevant (w : Word) (s : State) (p : List Event) (q : List Reply) :
    execCmd w { s with port := p, replies := q } =
      onNext (fun t => { t with port := p, replies := q }) (execCmd w s) := by
  cases hd : decode w with
  | ok i => rw [execCmd_of_ok _ hd, execCmd_of_ok _ hd, exec_port_replies_irrelevant]
  | error e => rw [execCmd_of_error _ hd, execCmd_of_error _ hd]; rfl

/-! ### The window -/

/-- A register stands at its own offset only (R23). -/
theorem offset_of_regAt {off : BitVec 6} {r : Reg} (h : regAt off = some r) : off = r.offset := by
  have table : ∀ o : BitVec 6, ∀ r ∈ regAt o, o = r.offset := by decide
  exact table off r h

theorem writeWindow_status (off : BitVec 6) (v : Word) (s : State) :
    (writeWindow off v s).status = s.status := by
  obtain ⟨he, hi, hc, -, -⟩ := writeWindow_frame off v s
  exact State.status_congr he hi hc

/-- A window write acts on the registers alone. -/
theorem writeWindow_port_replies_irrelevant (off : BitVec 6) (v : Word) (s : State) (p : List Event)
    (q : List Reply) :
    writeWindow off v { s with port := p, replies := q } =
      { writeWindow off v s with port := p, replies := q } := by
  unfold writeWindow; split <;> rfl

/-- What a write to CMD decodes to is the command's own word (R64). -/
theorem eq_encode_of_decode {w : Word} {i : Instr} (h : decode w = .ok i) : w = encode i := by
  apply BitVec.eq_of_toNat_eq
  rw [encode_toNat]
  rw [decode_eq] at h
  split at h
  · cases h
  · split at h <;> cases h <;> simp only [Instr.op, BitVec.toNat_ofNat] <;> omega

/-! ### One access and one step, forwards -/

theorem hostStep_of_illegal {a : Access} (s : State) (h : a.legal = false) :
    hostStep a s = .next (s.answer a .busError 0#32) := by
  simp only [hostStep, h]
  rfl

theorem hostStep_read {w : Width} {off : BitVec 6} (s : State) (h : (Access.read w off).legal = true) :
    hostStep (.read w off) s = .next (s.answer (.read w off) .okay (readWindow off s)) := by
  simp only [hostStep, h, if_true]

/-- The step that serves a legal read answers with the window's value and changes no register (R43, R147). -/
theorem step_read {s : State} {es : List Event} {off : BitVec 6} (hoff : off.toNat % 4 = 0)
    (hp : s.port = .access (.read .w32 off) :: es) :
    step s = .next { s with
      port := es, replies := s.replies ++ [⟨.read .w32 off, .okay, readWindow off s⟩] } := by
  rw [step_access hp, hostStep_read _ ((legal_iff _).mpr ⟨rfl, hoff⟩)]
  rfl

/-- The step that serves a legal write off CMD writes the window and answers OKAY (R45, R147). -/
theorem step_window_write {s : State} {es : List Event} {off : BitVec 6} {v : Word}
    (hoff : off.toNat % 4 = 0) (hcmd : off ≠ 0x00#6) (hp : s.port = .access (.write .w32 off v) :: es) :
    step s = .next { writeWindow off v s with
      port := es, replies := s.replies ++ [⟨.write .w32 off v, .okay, 0#32⟩] } := by
  rw [step_access hp, hostStep_write _ ((legal_iff _).mpr ⟨rfl, hoff⟩), if_neg hcmd, State.answer,
    writeWindow_port_replies_irrelevant off v s es s.replies]

/-- The registers and the reply one access leaves do not depend on the replies given before it (R147). -/
theorem hostStep_answers (a : Access) (s : State) :
    ∃ (t : State) (r : Reply), ∀ q : List Reply,
      hostStep a { s with replies := q } = .next { t with replies := q ++ [r] } := by
  cases hl : a.legal with
  | false => exact ⟨s, ⟨a, .busError, 0#32⟩, fun q => by rw [hostStep_of_illegal _ hl]; rfl⟩
  | true =>
    cases a with
    | read w off =>
      exact ⟨s, ⟨.read w off, .okay, readWindow off s⟩, fun q => by rw [hostStep_read _ hl]; rfl⟩
    | write w off v =>
      by_cases hcmd : off = 0x00#6
      · obtain ⟨u, hu⟩ := execCmd_next v s
        have hport := (execCmd_port_replies hu).1
        refine ⟨u, ⟨.write w off v, .okay, 0#32⟩, fun q => ?_⟩
        rw [hostStep_write _ hl, if_pos hcmd, execCmd_port_replies_irrelevant v s s.port q, hu, ← hport]
        rfl
      · refine ⟨writeWindow off v s, ⟨.write w off v, .okay, 0#32⟩, fun q => ?_⟩
        obtain ⟨-, -, -, hport, -⟩ := writeWindow_frame off v s
        rw [hostStep_write _ hl, if_neg hcmd, writeWindow_port_replies_irrelevant off v s s.port q, ← hport]
        rfl

/-- From every state a step gives a next state, whose registers, port and new replies do not depend on the
replies given before (R147). -/
theorem step_answers (s : State) :
    ∃ (t : State) (rs : List Reply), ∀ q : List Reply,
      step { s with replies := q } = .next { t with replies := q ++ rs } := by
  obtain ⟨p, hp⟩ : ∃ p, s.port = p := ⟨s.port, rfl⟩
  match p, hp with
  | [], hp => exact ⟨s, [], fun q => by rw [step_nil (by exact hp), List.append_nil]⟩
  | .reset :: es, hp =>
    exact ⟨{ State.reset with port := es }, [], fun q => by
      rw [step_reset (es := es) (by exact hp), List.append_nil]⟩
  | .access a :: es, hp =>
    obtain ⟨t, r, ht⟩ := hostStep_answers a { s with port := es }
    exact ⟨t, [r], fun q => by rw [step_access (a := a) (es := es) (by exact hp)]; exact ht q⟩

end Sys2Proof.Machine
end

