-- ==== Sys2Proof/Proofs/StateInvariant.lean ====
section
/-! PROOFS. The STATUS and reply invariant, at reset and kept by every step (R26 to R30, R42, R44). -/

namespace Sys2Proof.Machine

/-- Under R29 a read gives only what the spec allows at its offset (R26, R28, R30, R44). -/
theorem readDataOk_readWindow {s : State} (h : s.StatusInv) (off : BitVec 6) :
    readDataOk off (readWindow off s) = true := by
  unfold readDataOk readWindow
  cases hr : regAt off with
  | none => rfl
  | some r =>
    cases r with
    | status => exact decide_eq_true h.status_mem
    | tlen =>
      have := s.tlen.isLt
      simp only [BitVec.toNat_setWidth, decide_eq_true_eq]
      omega
    | cmd | k | fs | fc | fu | t j => rfl

theorem Reply.wf_busError {a : Access} (h : a.legal = false) : (⟨a, .busError, 0#32⟩ : Reply).wf = true := by
  cases a <;> simp [Reply.wf, h]

theorem Reply.wf_read {w : Width} {off : BitVec 6} {d : Word} (h : (Access.read w off).legal = true)
    (hd : readDataOk off d = true) : (⟨.read w off, .okay, d⟩ : Reply).wf = true := by
  simp [Reply.wf, h, hd]

theorem Reply.wf_write {w : Width} {off : BitVec 6} {v : Word} (h : (Access.write w off v).legal = true) :
    (⟨.write w off v, .okay, 0#32⟩ : Reply).wf = true := by
  simp [Reply.wf, h]

/-- Giving an allowed reply keeps the invariant. -/
theorem State.Inv.answer {s : State} {a : Access} {r : Resp} {d : Word} (h : s.Inv)
    (hr : (⟨a, r, d⟩ : Reply).wf = true) : (s.answer a r d).Inv := by
  obtain ⟨hstatus, hreplies⟩ := h
  refine ⟨hstatus, fun x hx => ?_⟩
  rw [State.answer_replies, List.mem_append, List.mem_singleton] at hx
  rcases hx with hx | rfl
  · exact hreplies x hx
  · exact hr

/-- One access keeps the invariant, by what the access was: turned away, a read, a command, a window write. -/
theorem hostStep_keeps_inv {a : Access} {s t : State} (h : s.Inv) (ht : hostStep a s = .next t) : t.Inv := by
  obtain ⟨hstatus, hreplies⟩ := h
  rcases hostStep_cases ht with ⟨hl, rfl⟩ | ⟨w, off, rfl, hl, rfl⟩ | ⟨w, v, u, rfl, hl, hu, rfl⟩ |
    ⟨w, off, v, rfl, hl, -, rfl⟩
  · exact State.Inv.answer ⟨hstatus, hreplies⟩ (Reply.wf_busError hl)
  · exact State.Inv.answer ⟨hstatus, hreplies⟩ (Reply.wf_read hl (readDataOk_readWindow hstatus off))
  · have hur := (execCmd_port_replies hu).2
    exact State.Inv.answer ⟨execCmd_statusInv hu, hur ▸ hreplies⟩ (Reply.wf_write hl)
  · obtain ⟨he, hi, hc, -, hr⟩ := writeWindow_frame off v s
    exact State.Inv.answer ⟨hstatus.congr he hi hc, hr ▸ hreplies⟩ (Reply.wf_write hl)

/-- Settles O47, by what a step can do: nothing, a reset, or one access. -/
theorem stepKeepsStatusAndReplyInvariant : Obligations.StepKeepsStatusAndReplyInvariant := by
  intro s t h hstep
  rcases step_cases hstep with ⟨-, rfl⟩ | ⟨es, -, rfl⟩ | ⟨a, es, -, ht⟩
  · exact h
  · obtain ⟨-, hreplies⟩ := h
    exact ⟨State.statusInv_clearStatus State.reset, hreplies⟩
  · exact hostStep_keeps_inv (s := { s with port := es }) h ht

/-- Settles O49: at reset no condition is recorded, nothing waits and nothing has been answered. -/
theorem resetHasTheInvariants : Obligations.ResetHasTheInvariants := by
  have hwaiting : State.reset.waiting = [] := rfl
  refine ⟨⟨State.statusInv_clearStatus State.reset, List.forall_mem_nil _⟩, ?_, List.forall_mem_nil _⟩
  rw [State.HostAligned, hwaiting]
  exact List.forall_mem_nil _

end Sys2Proof.Machine
end

