-- ==== Sys2Proof/Proofs/StateCommands.lean ====
section
/-! PROOFS. What the commands do to STATUS, and what they read (R31, R62). -/

namespace Sys2Proof.Machine

/-- PRS reads only the string that TLEN names (R27). -/
theorem parse_congr {t t' : Vector Byte 16} {n : Nat} (h : bufPrefix t n = bufPrefix t' n) :
    parse t n = parse t' n := by
  simp only [parse, h]

/-- Settles O16, by the word: a command other than PRS, PRS with either result of Parse, or an illegal word. -/
theorem everyCommandWritesAllOfStatus : Obligations.EveryCommandWritesAllOfStatus := by
  intro w s
  obtain ⟨t, ht⟩ := execCmd_next w s
  refine ⟨t, ht, fun i hd hi => ?_, fun hd => ?_, fun e hd => ?_, fun e l c => ?_⟩
  · rw [execCmd_of_ok s hd] at ht
    exact exec_status_of_ne_prs ht hi
  · rw [execCmd_of_ok s hd] at ht
    cases hp : parse s.t s.tlen.toNat with
    | ok k =>
      rw [exec_prs_ok hp] at ht
      cases ht
      exact ⟨rfl, rfl, rfl⟩
    | error c =>
      rw [exec_prs_error hp] at ht
      cases ht
      exact ⟨rfl, rfl, rfl⟩
  · rw [execCmd_of_error s hd] at ht
    cases ht
    exact ⟨rfl, rfl, rfl⟩
  · exact (execCmd_setStatus w s e l c).trans ht

/-- Two runs of PRS on the same string leave the same STATUS, and the same K where Parse succeeds (R62,
R127). -/
theorem exec_prs_congr {s s' : State} (hn : s.tlen = s'.tlen) (ht : s.text = s'.text) :
    ∃ t t', exec .prs s = .next t ∧ exec .prs s' = .next t' ∧ t.status = t'.status ∧
      (t.err = false → t.k = t'.k) := by
  have hparse : parse s'.t s'.tlen.toNat = parse s.t s.tlen.toNat := by
    rw [State.text, State.text, ← hn] at ht
    rw [← hn, parse_congr ht]
  cases hp : parse s.t s.tlen.toNat with
  | ok k => exact ⟨_, _, exec_prs_ok hp, exec_prs_ok (hparse.trans hp), rfl, fun _ => rfl⟩
  | error c =>
    exact ⟨_, _, exec_prs_error hp, exec_prs_error (hparse.trans hp), rfl, fun he => absurd he (by simp)⟩

/-- Settles O18, command by command: each result is a function of the operands that agree. -/
theorem commandsReadOnlyTheirOperands : Obligations.CommandsReadOnlyTheirOperands := by
  intro s s'
  refine ⟨⟨_, _, rfl, rfl, rfl⟩, ?_, fun hk => ?_, fun hk => ?_, exec_prs_congr⟩
  · rintro hfs hfc hfu i (rfl | rfl)
    · exact ⟨_, _, rfl, rfl, by simp [hfs, hfc, hfu], by simp⟩
    · exact ⟨_, _, rfl, rfl, by simp [hfs, hfc, hfu], by simp⟩
  · exact ⟨_, _, rfl, rfl, by simp [hk], by simp [hk], by simp [hk], by simp⟩
  · exact ⟨_, _, exec_fmt_eq s, exec_fmt_eq s', by simp [hk], by simp, by simp⟩

end Sys2Proof.Machine
end

