-- ==== Sys2Proof/Proofs/StateSteps.lean ====
section
/-! PROOFS. STATUS as the host reads it, the idle step, the step as a function of the registers, and the reads
and writes of the window (R20, R23, R28, R43 to R45, R147). -/

namespace Sys2Proof.Machine

/-- Settles O40, from STATUS as the sum of its shifted fields. -/
theorem statusFieldsStandInTheirBits : Obligations.StatusFieldsStandInTheirBits := by
  intro s
  rw [State.status_toNat]
  congr 1
  · cases s.err <;> cases s.ill <;> rfl
  · cases s.cause <;> rfl

/-- Settles O44: a step acts only on what waits at the port. -/
theorem idleBlockKeepsItsState : Obligations.IdleBlockKeepsItsState :=
  fun _ h => step_nil h

/-- Settles O45: states that agree on the registers and the port differ in the replies alone, and those a step
only adds to. -/
theorem stepIsTotalOnTheRegisters : Obligations.StepIsTotalOnTheRegisters := by
  rintro s s' ⟨hk, hfs, hfc, hfu, htlen, ht, herr, hill, hcause⟩ hport
  have hs' : s' = { s with replies := s'.replies } := by
    ext1 <;> simp [*]
  obtain ⟨t, rs, hstep⟩ := step_answers s
  have hstep' : step s' = .next { t with replies := s'.replies ++ rs } := by
    conv_lhs => rw [hs']
    exact hstep s'.replies
  exact ⟨_, _, hstep s.replies, hstep', ⟨rfl, rfl, rfl, rfl, rfl, rfl, rfl, rfl, rfl⟩, rfl, rs, rfl, rfl⟩

/-- Settles O35: the window's value at each of the sixteen offsets. -/
theorem legalReadsReturnTheRegister : Obligations.LegalReadsReturnTheRegister := by
  intro s es off d hmem hp
  have window : off.toNat % 4 = 0 ∧ readWindow off s = d := by
    simp only [List.mem_cons, List.not_mem_nil, or_false, Prod.mk.injEq] at hmem
    rcases hmem with h | h | h | h | h | h | h | h | h | h | h | h | h | h | h | h
    all_goals obtain ⟨rfl, rfl⟩ := h; exact ⟨rfl, rfl⟩
  obtain ⟨hoff, hd⟩ := window
  rw [step_read hoff hp, hd]

/-- Settles O36: at these six offsets a window write is ignored. -/
theorem ignoredWritesChangeNoRegister : Obligations.IgnoredWritesChangeNoRegister := by
  intro s es off v hmem hp
  have ignored : off.toNat % 4 = 0 ∧ off ≠ 0x00#6 ∧ writeWindow off v s = s := by
    simp only [List.mem_cons, List.not_mem_nil, or_false] at hmem
    rcases hmem with rfl | rfl | rfl | rfl | rfl | rfl
    all_goals exact ⟨rfl, by decide, rfl⟩
  obtain ⟨hoff, hcmd, hw⟩ := ignored
  rw [step_window_write hoff hcmd hp, hw]

/-- Settles O37: at these five offsets a window write is one register's update. -/
theorem registerWritesStoreTheValue : Obligations.RegisterWritesStoreTheValue := by
  intro s u es off v hmem hp
  have stored : off.toNat % 4 = 0 ∧ off ≠ 0x00#6 ∧ writeWindow off v s = u := by
    simp only [List.mem_cons, List.not_mem_nil, or_false, Prod.mk.injEq] at hmem
    rcases hmem with h | h | h | h | h
    all_goals obtain ⟨rfl, rfl⟩ := h; exact ⟨rfl, by decide, rfl⟩
  obtain ⟨hoff, hcmd, hw⟩ := stored
  rw [step_window_write hoff hcmd hp, hw]

end Sys2Proof.Machine
end

