-- ==== Sys2Proof/Proofs/StateFrames.lean ====
section
/-! PROOFS. Which register each event changes, what a read gives after a write, and the literal that `ldt`
loads (R23, R26, R45 to R47, R69, R162). -/

namespace Sys2Proof.Machine

/-! ### Window writes and reads -/

/-- A window write changes only the register at its offset (R45). -/
theorem writeWindow_changes (off : BitVec 6) (v : Word) (s : State) :
    ((writeWindow off v s).k ≠ s.k → off = 0x08#6) ∧ ((writeWindow off v s).fs ≠ s.fs → off = 0x0C#6) ∧
    ((writeWindow off v s).fc ≠ s.fc → off = 0x10#6) ∧ ((writeWindow off v s).fu ≠ s.fu → off = 0x14#6) ∧
    ((writeWindow off v s).tlen ≠ s.tlen → off = 0x1C#6) ∧
    ((writeWindow off v s).t ≠ s.t → ∃ j, off = (Reg.t j).offset) ∧
    ∀ i, bufWord (writeWindow off v s).t i ≠ bufWord s.t i → off = (Reg.t i).offset := by
  unfold writeWindow
  cases hr : regAt off with
  | none => simp
  | some r =>
    have hoff := offset_of_regAt hr
    cases r with
    | cmd | status => simp
    | k | fs | fc | fu | tlen => simp [hoff, Reg.offset]
    | t j =>
      simp only [State.writeT_k, State.writeT_fs, State.writeT_fc, State.writeT_fu, State.writeT_tlen,
        State.writeT_t, bufWord_setBufWord, ne_eq, not_true_eq_false, false_implies, true_and]
      refine ⟨fun _ => ⟨j, hoff⟩, fun i hi => ?_⟩
      split at hi
      · next hij => rw [hij, hoff]
      · exact absurd rfl hi

/-- What a read gives depends on STATUS and the register at its offset only (R43). -/
theorem readWindow_congr {off : BitVec 6} {s s' : State} (hstatus : s.status = s'.status)
    (hk : off = 0x08#6 → s.k = s'.k) (hfs : off = 0x0C#6 → s.fs = s'.fs) (hfc : off = 0x10#6 → s.fc = s'.fc)
    (hfu : off = 0x14#6 → s.fu = s'.fu) (htlen : off = 0x1C#6 → s.tlen = s'.tlen)
    (ht : ∀ j, off = (Reg.t j).offset → bufWord s.t j = bufWord s'.t j) :
    readWindow off s = readWindow off s' := by
  unfold readWindow
  cases hr : regAt off with
  | none => rfl
  | some r =>
    have hoff := offset_of_regAt hr
    cases r with
    | cmd => rfl
    | status => exact hstatus
    | k => exact hk hoff
    | fs => exact hfs hoff
    | fc => exact hfc hoff
    | fu => exact hfu hoff
    | tlen => exact congrArg (BitVec.setWidth 32) (htlen hoff)
    | t j => exact ht j hoff

/-- The 32-bit registers, by their offsets, keep the word written (R45, R46). -/
theorem readWindow_writeWindow_same {off : BitVec 6} (v : Word) (s : State)
    (h : off ∈ [0x08#6, 0x0C#6, 0x10#6, 0x14#6, 0x20#6, 0x24#6, 0x28#6, 0x2C#6]) :
    readWindow off (writeWindow off v s) = v := by
  have buffer : ∀ j, bufWord (setBufWord s.t j v) j = v := fun j => by rw [bufWord_setBufWord, if_pos rfl]
  simp only [List.mem_cons, List.not_mem_nil, or_false] at h
  rcases h with rfl | rfl | rfl | rfl | rfl | rfl | rfl | rfl
  · rfl
  · rfl
  · rfl
  · rfl
  · exact buffer 0
  · exact buffer 1
  · exact buffer 2
  · exact buffer 3

/-- TLEN keeps bits 4:0 of the word written (R26). -/
theorem readWindow_writeWindow_tlen (v : Word) (s : State) :
    readWindow 0x1C#6 (writeWindow 0x1C#6 v s) = BitVec.ofNat 32 (v.toNat % 32) := by
  change (v.setWidth 5).setWidth 32 = _
  apply BitVec.eq_of_toNat_eq
  simp

/-- Settles O39: the offset written gives the value stored there, and where nothing was stored at the offset
read, the read sees what it saw before. -/
theorem readAfterWindowWrite : Obligations.ReadAfterWindowWrite := by
  intro s off off' v _ _ _
  split_ifs with hword htlen
  · obtain ⟨rfl, hmem⟩ := hword
    exact readWindow_writeWindow_same v s hmem
  · obtain ⟨rfl, rfl⟩ := htlen
    exact readWindow_writeWindow_tlen v s
  · obtain ⟨ck, cfs, cfc, cfu, ctlen, -, ct⟩ := writeWindow_changes off v s
    have elsewhere : ∀ o ∈ [0x08#6, 0x0C#6, 0x10#6, 0x14#6, 0x20#6, 0x24#6, 0x28#6, 0x2C#6],
        off' = o → ¬ off = o := by
      rintro o ho rfl rfl
      exact hword ⟨rfl, ho⟩
    have word_mem : ∀ j, (Reg.t j).offset ∈
        [0x08#6, 0x0C#6, 0x10#6, 0x14#6, 0x20#6, 0x24#6, 0x28#6, 0x2C#6] := by decide
    exact readWindow_congr (writeWindow_status off v s)
      (fun h => not_imp_comm.mp ck (elsewhere _ (by simp) h))
      (fun h => not_imp_comm.mp cfs (elsewhere _ (by simp) h))
      (fun h => not_imp_comm.mp cfc (elsewhere _ (by simp) h))
      (fun h => not_imp_comm.mp cfu (elsewhere _ (by simp) h))
      (fun h => not_imp_comm.mp ctlen fun ho => htlen ⟨h.trans ho.symm, ho⟩)
      (fun j h => not_imp_comm.mp (ct j) (elsewhere _ (word_mem j) h))

/-! ### The registers a step changes -/

/-- Each command changes only the registers R62 says it writes. -/
theorem exec_changes {i : Instr} {s t : State} (h : exec i s = .next t) :
    (t.k ≠ s.k → i = .enc ∨ i = .encu ∨ i = .prs) ∧ (t.fs ≠ s.fs → i = .dec) ∧ (t.fc ≠ s.fc → i = .dec) ∧
    (t.fu ≠ s.fu → i = .dec) ∧ (t.tlen ≠ s.tlen → i = .fmt) ∧ (t.t ≠ s.t → i = .fmt) := by
  rcases exec_cases h with ⟨rfl, rfl⟩ | ⟨rfl, rfl⟩ | ⟨rfl, rfl⟩ | ⟨rfl, rfl⟩ | ⟨rfl, rfl⟩ |
    ⟨rfl, k, -, rfl⟩ | ⟨rfl, c, -, rfl⟩
  all_goals simp

/-- The same of a command word, by the command's own word (R64); an illegal word changes none of these. -/
theorem execCmd_changes {w : Word} {s t : State} (h : execCmd w s = .next t) :
    (t.k ≠ s.k → w = encode .enc ∨ w = encode .encu ∨ w = encode .prs) ∧ (t.fs ≠ s.fs → w = encode .dec) ∧
    (t.fc ≠ s.fc → w = encode .dec) ∧ (t.fu ≠ s.fu → w = encode .dec) ∧
    (t.tlen ≠ s.tlen → w = encode .fmt) ∧ (t.t ≠ s.t → w = encode .fmt) := by
  rcases execCmd_cases h with ⟨i, hd, hi⟩ | ⟨e, -, rfl⟩
  · obtain ⟨hk, hfs, hfc, hfu, htlen, ht⟩ := exec_changes hi
    rw [eq_encode_of_decode hd]
    exact ⟨fun c => (hk c).imp (congrArg _) (.imp (congrArg _) (congrArg _)), fun c => congrArg _ (hfs c),
      fun c => congrArg _ (hfc c), fun c => congrArg _ (hfu c), fun c => congrArg _ (htlen c),
      fun c => congrArg _ (ht c)⟩
  · simp

/-- Settles O50, by what the access was: turned away or a read (nothing changes), a command, a window write. -/
theorem registersChangeOnlyAsListed : Obligations.RegistersChangeOnlyAsListed := by
  intro s t e es hp hstep he cmdIs writes
  rcases step_cases hstep with ⟨hp', -⟩ | ⟨es', hp', -⟩ | ⟨a, es', hp', ht⟩
  · rw [hp] at hp'
    cases hp'
  · rw [hp] at hp'
    cases hp'
    exact absurd rfl he
  · rw [hp] at hp'
    cases hp'
    rcases hostStep_cases ht with ⟨-, rfl⟩ | ⟨w, off, rfl, -, rfl⟩ | ⟨w, v, u, rfl, hl, hu, rfl⟩ |
      ⟨w, off, v, rfl, hl, -, rfl⟩
    · exact ⟨absurd rfl, absurd rfl, absurd rfl, absurd rfl, absurd rfl, absurd rfl, absurd rfl⟩
    · exact ⟨absurd rfl, absurd rfl, absurd rfl, absurd rfl, absurd rfl, absurd rfl, absurd rfl⟩
    · obtain ⟨rfl, -⟩ := (legal_iff _).mp hl
      obtain ⟨hk, hfs, hfc, hfu, htlen, ht⟩ := execCmd_changes hu
      have cmd : ∀ {i}, v = encode i → cmdIs i := by rintro i rfl; rfl
      exact ⟨fun c => (hk c).imp cmd (.imp cmd fun h => .inl (cmd h)), fun c => .inl (cmd (hfs c)),
        fun c => .inl (cmd (hfc c)), fun c => .inl (cmd (hfu c)), fun c => .inl (cmd (htlen c)),
        fun c => .inl (cmd (ht c)), fun _ => ⟨v, rfl⟩⟩
    · obtain ⟨rfl, -⟩ := (legal_iff _).mp hl
      obtain ⟨hk, hfs, hfc, hfu, htlen, ht, -⟩ := writeWindow_changes off v { s with port := es }
      have wrote : ∀ {o}, off = o → writes o := fun h => h ▸ ⟨v, rfl⟩
      have word : ∀ j : Fin 4, (Reg.t j).offset = 0x20#6 ∨ (Reg.t j).offset = 0x24#6 ∨
          (Reg.t j).offset = 0x28#6 ∨ (Reg.t j).offset = 0x2C#6 := by decide
      refine ⟨fun c => .inr (.inr (.inr (wrote (hk c)))), fun c => .inr (wrote (hfs c)),
        fun c => .inr (wrote (hfc c)), fun c => .inr (wrote (hfu c)), fun c => .inr (wrote (htlen c)),
        fun c => ?_, absurd (writeWindow_status off v { s with port := es })⟩
      obtain ⟨j, rfl⟩ := ht c
      exact .inr ((word j).imp wrote (.imp wrote (.imp wrote wrote)))

/-! ### The literal of `ldt` -/

/-- The bytes of a word put together from four bytes (R46). -/
theorem byteOf_append (b₀ b₁ b₂ b₃ : Byte) :
    byteOf (b₃ ++ b₂ ++ b₁ ++ b₀) 0 = b₀ ∧ byteOf (b₃ ++ b₂ ++ b₁ ++ b₀) 1 = b₁ ∧
    byteOf (b₃ ++ b₂ ++ b₁ ++ b₀) 2 = b₂ ∧ byteOf (b₃ ++ b₂ ++ b₁ ++ b₀) 3 = b₃ := by
  have drop : ∀ {n : Nat} {x : BitVec n} {b : Byte} {k : Nat}, 8 ≤ k →
      (x ++ b).extractLsb' k 8 = x.extractLsb' (k - 8) 8 := BitVec.extractLsb'_append_eq_of_le
  refine ⟨BitVec.extractLsb'_append_eq_right, ?_, ?_, ?_⟩
  · exact (drop (by norm_num)).trans BitVec.extractLsb'_append_eq_right
  · exact (drop (by norm_num)).trans ((drop (by norm_num)).trans BitVec.extractLsb'_append_eq_right)
  · exact (drop (by norm_num)).trans
      ((drop (by norm_num)).trans ((drop (by norm_num)).trans BitVec.extractLsb'_eq_self))

/-- Byte `i` of the word `Wj` is byte `4j+i` of the literal, 0x00 past its end (R69). -/
theorem byteOf_literalWord (bytes : List Byte) (j : Nat) {i : Nat} (hi : i < 4) :
    byteOf (Asm.literalWord bytes j) i = bytes.getD (4 * j + i) 0x00#8 := by
  obtain ⟨h0, h1, h2, h3⟩ := byteOf_append (bytes.getD (4 * j) 0#8) (bytes.getD (4 * j + 1) 0#8)
    (bytes.getD (4 * j + 2) 0#8) (bytes.getD (4 * j + 3) 0#8)
  match i, hi with
  | 0, _ => exact h0
  | 1, _ => exact h1
  | 2, _ => exact h2
  | 3, _ => exact h3

/-- The buffer with the four words of a literal written over it holds the literal, 0x00 after it. -/
theorem setBufWord_literalWords (t : Vector Byte 16) (bytes : List Byte) :
    setBufWord (setBufWord (setBufWord (setBufWord t 0 (Asm.literalWord bytes 0)) 1
      (Asm.literalWord bytes 1)) 2 (Asm.literalWord bytes 2)) 3 (Asm.literalWord bytes 3) =
      bufOfBytes bytes := by
  ext1 n hn
  have hbyte := byteOf_literalWord bytes (n / 4) (Nat.mod_lt n (by norm_num : 4 > 0))
  rw [Nat.div_add_mod] at hbyte
  rw [bufOfBytes_getElem _ _ hn, ← hbyte]
  simp only [setBufWord_getElem]
  have hj : n / 4 < 4 := by omega
  match hq : n / 4, hj with
  | 0, _ => simp
  | 1, _ => simp
  | 2, _ => simp
  | 3, _ => simp

theorem core_run_succ {s t : State} (k : Nat) (h : step s = .next t) :
    core.run (k + 1) s = core.run k t := by
  simp only [Host.Core.run, show core.step s = .next t from h]

/-- The step that serves a legal write to a word of T changes that word alone (R46). -/
theorem step_buffer_write (s : State) (b : Vector Byte 16) (es : List Event) (q : List Reply) (j : Fin 4)
    (v : Word) :
    step { s with t := b, port := .access (.write .w32 (Reg.t j).offset v) :: es, replies := q } =
      .next { s with
        t := setBufWord b j v, port := es,
        replies := q ++ [⟨.write .w32 (Reg.t j).offset v, .okay, 0#32⟩] } := by
  have hoff : ∀ j : Fin 4, (Reg.t j).offset.toNat % 4 = 0 ∧ (Reg.t j).offset ≠ 0x00#6 := by decide
  obtain ⟨haligned, hcmd⟩ := hoff j
  rw [step_window_write haligned hcmd rfl]
  simp only [writeWindow, regAt_offset, State.writeT]

/-- The five steps that serve `ldt` write the four words of T, then TLEN, and no other register. -/
theorem core_run_ldt {s : State} (bytes : List Byte) (hp : s.port = []) :
    ∃ rs, core.run 5 (s.enqueue (Asm.Stmt.ldt bytes).expand) = .next { s with
      t := bufOfBytes bytes, tlen := (BitVec.ofNat 32 bytes.length).setWidth 5,
      port := [], replies := rs } := by
  have henqueue : s.enqueue (Asm.Stmt.ldt bytes).expand = { s with
      port := [.access (.write .w32 (Reg.t 0).offset (Asm.literalWord bytes 0)),
        .access (.write .w32 (Reg.t 1).offset (Asm.literalWord bytes 1)),
        .access (.write .w32 (Reg.t 2).offset (Asm.literalWord bytes 2)),
        .access (.write .w32 (Reg.t 3).offset (Asm.literalWord bytes 3)),
        .access (.write .w32 0x1C#6 (BitVec.ofNat 32 bytes.length))] } := by
    rw [State.enqueue, hp]
    rfl
  rw [henqueue,
    core_run_succ 4 (step_buffer_write s _ _ _ 0 _), core_run_succ 3 (step_buffer_write s _ _ _ 1 _),
    core_run_succ 2 (step_buffer_write s _ _ _ 2 _), core_run_succ 1 (step_buffer_write s _ _ _ 3 _),
    setBufWord_literalWords]
  exact ⟨_, core_run_succ 0 (step_window_write (off := 0x1C#6) rfl (by decide) rfl)⟩

/-- Settles O56: the buffer of `ldt` is the literal with 0x00 after it, and TLEN, which holds up to 31, its
length. -/
theorem ldtLoadsTheLiteral : Obligations.LdtLoadsTheLiteral := by
  intro s bytes hlen hp
  obtain ⟨rs, hrun⟩ := core_run_ldt bytes hp
  have htlen : ((BitVec.ofNat 32 bytes.length).setWidth 5).toNat = bytes.length := by
    simp only [BitVec.toNat_setWidth, BitVec.toNat_ofNat]
    omega
  refine ⟨_, _, if_pos (decide_eq_true hlen), hrun, rfl, htlen, ?_,
    bufOfBytes_toList bytes hlen, rfl, rfl, rfl, rfl, rfl⟩
  rw [State.text, htlen, bufPrefix_bufOfBytes bytes hlen]

end Sys2Proof.Machine
end

