-- ==== Sys2Proof/Proofs/MemoryPort.lean ====
section
/-! PROOFS. The host port: what a step does to the accesses that wait there and to the answers given, and the
access that is turned away (R41, R42, R47, R153, R172). -/

namespace Sys2Proof.Machine

/-! ### The accesses that wait -/

theorem State.waiting_congr {s s' : State} (h : s.port = s'.port) : s.waiting = s'.waiting := by
  rw [State.waiting, h, State.waiting]

theorem State.waiting_of_port_nil {s : State} (h : s.port = []) : s.waiting = [] := by
  rw [State.waiting, h, List.filterMap_nil]

/-- A reset is no access: behind it the same accesses wait (log entry 4). -/
theorem State.waiting_of_port_reset {s : State} {es : List Event} (h : s.port = .reset :: es) :
    s.waiting = { s with port := es }.waiting := by
  rw [State.waiting, h]
  rfl

theorem State.waiting_of_port_access {s : State} {a : Access} {es : List Event}
    (h : s.port = .access a :: es) : s.waiting = a :: { s with port := es }.waiting := by
  rw [State.waiting, h]
  rfl

/-! ### Aligned hosts -/

/-- A legal access is answered OKAY, and the port is left as it is (R42, R147). -/
theorem hostStep_of_legal {a : Access} {s t : State} (hl : a.legal = true) (h : hostStep a s = .next t) :
    t.port = s.port ∧ ∃ d, t.replies = s.replies ++ [⟨a, .okay, d⟩] := by
  rcases hostStep_cases h with ⟨hl', -⟩ | ⟨w, off, -, -, rfl⟩ | ⟨w, v, u, -, -, hu, rfl⟩ |
    ⟨w, off, v, -, -, -, rfl⟩
  · rw [hl] at hl'
    cases hl'
  · exact ⟨rfl, _, rfl⟩
  · obtain ⟨hp, hr⟩ := execCmd_port_replies hu
    exact ⟨hp, _, by rw [State.answer_replies, hr]⟩
  · obtain ⟨-, -, -, hp, hr⟩ := writeWindow_frame off v s
    exact ⟨hp, _, by rw [State.answer_replies, hr]⟩

/-- Settles O48, by what a step can do: idle, reset (both leave the replies), or serve an access, which the
aligned host made legal. -/
theorem alignedHostStaysFreeOfBusErrors : Obligations.AlignedHostStaysFreeOfBusErrors := by
  rintro s t ⟨haligned, hokay⟩ hstep
  rcases step_cases hstep with ⟨-, rfl⟩ | ⟨es, hp, rfl⟩ | ⟨a, es, hp, ht⟩
  · exact ⟨haligned, hokay⟩
  · rw [State.HostAligned, State.waiting_of_port_reset hp] at haligned
    exact ⟨haligned, hokay⟩
  · rw [State.HostAligned, State.waiting_of_port_access hp, List.forall_mem_cons] at haligned
    obtain ⟨hlegal, hrest⟩ := haligned
    obtain ⟨hport, d, hreplies⟩ := hostStep_of_legal hlegal ht
    constructor
    · rw [State.HostAligned, State.waiting_congr hport]
      exact hrest
    · rw [State.NoBusError, hreplies, List.forall_mem_append, List.forall_mem_singleton]
      exact ⟨hokay, rfl⟩

/-! ### Answers in order -/

/-- Every access the host has issued, in the order of issue: those answered, then those that wait. -/
def State.issued (s : State) : List Access := s.replies.map Reply.access ++ s.waiting

/-- A step takes the first event from the port and loses, adds and reorders no access: the one it serves
passes from the head of those that wait to the end of those answered (R47). -/
theorem step_port_issued {s t : State} (h : step s = .next t) :
    t.port = s.port.tail ∧ t.issued = s.issued := by
  rcases step_cases h with ⟨hp, rfl⟩ | ⟨es, hp, rfl⟩ | ⟨a, es, hp, ht⟩
  · exact ⟨by rw [hp, List.tail_nil], rfl⟩
  · refine ⟨by rw [hp, List.tail_cons], ?_⟩
    rw [State.issued, State.issued, State.waiting_of_port_reset hp]
    rfl
  · obtain ⟨hport, r, d, hreplies⟩ := hostStep_port_replies ht
    refine ⟨by rw [hp, List.tail_cons, hport], ?_⟩
    rw [State.issued, State.issued, hreplies, State.waiting_congr hport, State.waiting_of_port_access hp,
      List.map_append, List.append_assoc]
    rfl

theorem step_next (s : State) : ∃ t, step s = .next t := by
  obtain ⟨t, rs, ht⟩ := step_answers s
  exact ⟨_, ht s.replies⟩

/-- As many steps as there are events empty the port, with the same accesses issued. -/
theorem core_run_empties_port {s : State} {es : List Event} (hp : s.port = es) :
    ∃ t : State, core.run es.length s = .next t ∧ t.port = [] ∧ t.issued = s.issued := by
  induction es generalizing s with
  | nil => exact ⟨s, rfl, hp, rfl⟩
  | cons e es ih =>
    obtain ⟨u, hu⟩ := step_next s
    obtain ⟨hport, hissued⟩ := step_port_issued hu
    rw [hp, List.tail_cons] at hport
    obtain ⟨t, hrun, hempty, ht⟩ := ih hport
    exact ⟨t, (core_run_succ es.length hu).trans hrun, hempty, ht.trans hissued⟩

/-- Settles O46: when the port is empty, all the accesses issued are answered. -/
theorem everyAccessIsAnsweredInOrder : Obligations.EveryAccessIsAnsweredInOrder := by
  intro s
  obtain ⟨t, hrun, hempty, hissued⟩ := core_run_empties_port (s := s) rfl
  rw [State.issued, State.waiting_of_port_nil hempty, List.append_nil] at hissued
  exact ⟨t, hrun, hempty, hissued⟩

/-! ### Illegal accesses -/

/-- Settles O34: such an access is not legal, and is turned away. -/
theorem illegalAccessHasNoEffect : Obligations.IllegalAccessHasNoEffect := by
  intro s es a hbad hp
  have hlegal : a.legal = false := by
    rw [← Bool.not_eq_true, legal_iff, not_and_or]
    exact hbad
  rw [step_access hp, hostStep_of_illegal _ hlegal]
  rfl

end Sys2Proof.Machine
end

