-- ==== Sys2Proof/Proofs/MemoryCommands.lean ====
section
/-! PROOFS. A command word written to CMD: the step runs it, and writing it again changes nothing (R53, R55,
R140, R147). -/

namespace Sys2Proof.Machine

/-- Settles O4: the write is legal and at CMD, so the step runs the word, which always gives a next state. -/
theorem stepRunsTheDecodedCommand : Obligations.StepRunsTheDecodedCommand := by
  intro s es w i hp hd
  obtain ⟨t, ht⟩ := exec_next i { s with port := es }
  rw [step_access hp, hostStep_write _ ((legal_iff _).mpr ⟨rfl, rfl⟩), if_pos rfl, execCmd_of_ok _ hd, ht]
  rfl

/-- Writing the same string to T and TLEN again, as FMT does, changes nothing. -/
theorem State.writeText_twice (s : State) (b : Vector Byte 16) (v : Word) :
    ((((s.writeT b).writeTlen v).clearStatus.writeT b).writeTlen v).clearStatus =
      ((s.writeT b).writeTlen v).clearStatus := rfl

/-- A command run twice leaves what it left at first: the second run reads the same operands, since no command
writes what it reads, and records the same STATUS (R55, R62). -/
theorem exec_idempotent {i : Instr} {s t : State} (h : exec i s = .next t) : exec i t = .next t := by
  rcases exec_cases h with ⟨rfl, rfl⟩ | ⟨rfl, rfl⟩ | ⟨rfl, rfl⟩ | ⟨rfl, rfl⟩ | ⟨rfl, rfl⟩ |
    ⟨rfl, k, hk, rfl⟩ | ⟨rfl, c, hc, rfl⟩
  · rfl
  · rfl
  · rfl
  · rfl
  · rw [exec_fmt_eq, State.clearStatus_k, State.writeTlen_k, State.writeT_k, State.writeText_twice]
  · exact exec_prs_ok (s := (s.writeK k).clearStatus) hk
  · exact exec_prs_error (s := s.fail c) hc

/-- Settles O17, by the word: a command, or an illegal word, which records the same condition again. -/
theorem everyCommandIsIdempotent : Obligations.EveryCommandIsIdempotent := by
  intro w s t h
  rcases execCmd_cases h with ⟨i, hd, hi⟩ | ⟨e, hd, rfl⟩
  · rw [execCmd_of_ok _ hd]
    exact exec_idempotent hi
  · rw [execCmd_of_error _ hd]
    rfl

end Sys2Proof.Machine
end

