-- ==== Sys2Proof/Proofs/MemoryWindow.lean ====
section
/-! PROOFS. The words of T as the host reads and writes them, and the bus side of the window (R40, R46). -/

namespace Sys2Proof.Machine

/-! ### The words of T -/

/-- Byte `i` of Tj is T[4j+i] (R46). -/
theorem byteOf_bufWord (t : Vector Byte 16) (j : Fin 4) {i : Nat} (hi : i < 4) :
    byteOf (bufWord t j) i = t[4 * j.val + i] := by
  obtain ⟨h0, h1, h2, h3⟩ :=
    byteOf_append t[4 * j.val] t[4 * j.val + 1] t[4 * j.val + 2] t[4 * j.val + 3]
  match i, hi with
  | 0, _ => exact h0
  | 1, _ => exact h1
  | 2, _ => exact h2
  | 3, _ => exact h3

/-- A word of T is aligned and is not CMD (R23). -/
theorem offset_t_aligned (j : Fin 4) : (Reg.t j).offset.toNat % 4 = 0 ∧ (Reg.t j).offset ≠ 0x00#6 := by
  revert j; decide

/-- Bytes outside Tj are left by a write to it (R46). -/
theorem setBufWord_getElem?_of_ne (t : Vector Byte 16) (j : Fin 4) (v : Word) {n : Nat}
    (hn : n / 4 ≠ j.val) : (setBufWord t j v)[n]? = t[n]? := by
  by_cases h : n < 16
  · rw [Vector.getElem?_eq_getElem h, Vector.getElem?_eq_getElem h, setBufWord_getElem t j v n h, if_neg hn]
  · rw [Vector.getElem?_eq_none (by omega), Vector.getElem?_eq_none (by omega)]

/-- Byte T[4j+i] after a write to Tj is byte `i` of the value (R46). -/
theorem setBufWord_getElem?_of_eq (t : Vector Byte 16) (j : Fin 4) (v : Word) {i : Nat} (hi : i < 4) :
    (setBufWord t j v)[4 * j.val + i]? = some (byteOf v i) := by
  have hj : (4 * j.val + i) / 4 = j.val ∧ (4 * j.val + i) % 4 = i := by omega
  rw [Vector.getElem?_eq_getElem (by omega), setBufWord_getElem, if_pos hj.1, hj.2]

/-- Settles O38: the value a read gives is the word's bytes, and a write is the buffer's update. -/
theorem bufferWordsAreLittleEndian : Obligations.BufferWordsAreLittleEndian := by
  refine ⟨fun t j i hi => ?_, fun s es j hp => ?_, fun s es j v hp => ?_⟩
  · rw [Vector.getElem?_eq_getElem (by omega), ← byteOf_bufWord t j hi, byteOf]
  · have hread : readWindow (Reg.t j).offset s = bufWord s.t j := by
      simp only [readWindow, regAt_offset]
    have hstep := step_read (offset_t_aligned j).1 hp
    rw [hread] at hstep
    exact hstep
  · have hport : .access (.write .w32 (Reg.t j).offset v) :: es = s.port := hp.symm
    have hstep := step_buffer_write s s.t es s.replies j v
    rw [hport] at hstep
    exact ⟨setBufWord s.t j v, hstep, fun i hi => setBufWord_getElem?_of_eq s.t j v hi,
      fun n hn => setBufWord_getElem?_of_ne s.t j v hn, by rw [bufWord_setBufWord, if_pos rfl]⟩

/-! ### The bus side -/

/-- The offset of an address in the window is its distance from the base, which is its low 6 bits when the base
is aligned (R40). -/
theorem offsetOf_toNat {base addr : Nat} (hbase : base % 64 = 0) (h : inWindow base addr = true) :
    (offsetOf base addr).toNat = addr - base ∧ (offsetOf base addr).toNat = addr % 64 := by
  obtain ⟨hlo, hhi⟩ := (inWindow_iff base addr).mp h
  rw [offsetOf, BitVec.toNat_ofNat]
  omega

/-- The access the block sees: the same kind, width and data, at the offset from the base (R40). -/
def BusAccess.atOffset (base : Nat) : BusAccess → Access
  | .read w a => .read w (offsetOf base a)
  | .write w a v => .write w (offsetOf base a) v

theorem BusAccess.atOffset_off (base : Nat) (b : BusAccess) :
    (b.atOffset base).off = offsetOf base b.addr := by
  cases b <;> rfl

theorem BusAccess.route_eq (base : Nat) (b : BusAccess) :
    b.route base = if inWindow base b.addr then some (b.atOffset base) else none := by
  cases b <;> rfl

/-- Settles O52: exactly the addresses in the window are routed, at their offsets. -/
theorem busRoutesTheWindow : Obligations.BusRoutesTheWindow := by
  intro base b hbase
  rw [BusAccess.route_eq]
  by_cases hw : inWindow base b.addr = true
  · rw [if_pos hw]
    refine ⟨iff_of_true rfl ((inWindow_iff base b.addr).mp hw), fun a ha => ?_⟩
    cases ha
    obtain ⟨hdist, hlow⟩ := offsetOf_toNat hbase hw
    rw [BusAccess.atOffset_off]
    exact ⟨hdist, hlow, by cases b <;> rfl⟩
  · rw [if_neg hw]
    refine ⟨iff_of_false Bool.false_ne_true fun h => hw ((inWindow_iff base b.addr).mpr h), fun a ha => ?_⟩
    cases ha

end Sys2Proof.Machine
end

