-- ==== Sys2Proof/Proofs/EncodingDecoder.lean ====
section
/-! PROOFS. The decoder and the encoder: what every one of the 2^32 words decodes to, and that each command has
exactly one word (R60, R64 to R66). -/

namespace Sys2Proof.Machine

/-! ### The words of the commands -/

/-- Every command's word is legal and decodes to it, one row of R64's map per command. -/
theorem encode_wf_and_decodes (i : Instr) :
    (CmdWord.ofWord (encode i)).wf = true ∧ decode (encode i) = .ok i := by
  cases i with
  | nop => exact Laws.DecodeEncode.nop
  | enc => exact Laws.DecodeEncode.enc
  | encu => exact Laws.DecodeEncode.encu
  | dec => exact Laws.DecodeEncode.dec
  | fmt => exact Laws.DecodeEncode.fmt
  | prs => exact Laws.DecodeEncode.prs

/-- A command has one word and no other (R64, R65). -/
theorem decode_eq_ok_iff (w : Word) (i : Instr) : decode w = .ok i ↔ w = encode i := by
  constructor
  · exact eq_encode_of_decode
  · rintro rfl
    exact (encode_wf_and_decodes i).2

/-- A word whose number is a command's OP decodes to that command (R64). -/
theorem decode_of_toNat_eq_op {w : Word} {i : Instr} (h : w.toNat = i.op.toNat) : decode w = .ok i := by
  rw [decode_eq_ok_iff, ← BitVec.toNat_inj, encode_toNat]
  exact h

/-! ### The illegal words -/

theorem decode_of_rsv_ne_zero {w : Word} (h : w.toNat / 8 ≠ 0) : decode w = .error .rsvNonzero := by
  rw [decode_eq, if_pos h]

theorem decode_of_op_reserved {w : Word} (h : w.toNat = 6 ∨ w.toNat = 7) : decode w = .error .opReserved := by
  rcases h with h | h <;> rw [decode_eq, h] <;> rfl

/-! ### The words of the opcode table -/

/-- A table row of at most 32 bits is decoded as its command word. -/
theorem decodeTableWord_eq_some_iff {nbits : Nat} (n : Nat) (i : Instr) (h : nbits ≤ 32) :
    decodeTableWord nbits n = some i ↔ decode (tableWord nbits n) = .ok i := by
  rw [decodeTableWord, if_pos h]
  cases decode (tableWord nbits n) <;> simp

theorem tableWord_toNat {n : Nat} (h : n < 2 ^ 32) : (tableWord 32 n).toNat = n := by
  rw [tableWord, BitVec.toNat_ofNat, Nat.mod_mod, Nat.mod_eq_of_lt h]

/-! ### The statements -/

/-- Settles O3: the word is legal, it alone decodes to the command, and the table's word of a number is the
word of that number. -/
theorem decodeEncodeAgree : Obligations.DecodeEncodeAgree := by
  intro i _
  refine ⟨(encode_wf_and_decodes i).1, fun w => decode_eq_ok_iff w i, fun n hn => ?_⟩
  rw [decodeTableWord_eq_some_iff n i le_rfl, decode_eq_ok_iff, ← BitVec.toNat_inj, tableWord_toNat hn]

/-- Settles O2: the words with RSV set, the six commands' words, the two reserved ones. -/
theorem decoderIsTotalAndExact : Obligations.DecoderIsTotalAndExact :=
  fun _ => ⟨decode_of_rsv_ne_zero, decode_of_toNat_eq_op (i := .nop), decode_of_toNat_eq_op (i := .enc),
    decode_of_toNat_eq_op (i := .encu), decode_of_toNat_eq_op (i := .dec), decode_of_toNat_eq_op (i := .fmt),
    decode_of_toNat_eq_op (i := .prs), fun h => decode_of_op_reserved (.inl h),
    fun h => decode_of_op_reserved (.inr h)⟩

/-- Settles O1: three commands' words, a reserved OP, and RSV set at either end of its field. -/
theorem sampleCommandWordsDecode : Obligations.SampleCommandWordsDecode :=
  ⟨decode_of_toNat_eq_op rfl, decode_of_toNat_eq_op rfl, decode_of_toNat_eq_op rfl,
    decode_of_op_reserved (.inl rfl), decode_of_rsv_ne_zero (by decide), decode_of_rsv_ne_zero (by decide)⟩

end Sys2Proof.Machine
end

