-- ==== Sys2Proof/Proofs/EncodingAssembler.lean ====
section
/-! PROOFS. The assembler of host programs: which operands a statement takes, what it expands to, and that what
a program text assembles to is made of legal accesses (R67 to R70). -/

namespace Sys2Proof.Machine.Asm

/-! ### What a statement takes, and what it gives -/

theorem offOk_iff (off : Nat) : offOk off = true ↔ off ≤ 0x3C ∧ off % 4 = 0 := by
  simp only [offOk, Bool.and_eq_true, decide_eq_true_eq]

theorem immOk_iff (imm : Nat) : immOk imm = true ↔ imm < 2 ^ 32 := by
  simp only [immOk, decide_eq_true_eq]

theorem wf_wr_iff (off imm : Nat) :
    (Stmt.wr off imm).wf = true ↔ (off ≤ 0x3C ∧ off % 4 = 0) ∧ imm < 2 ^ 32 := by
  rw [Stmt.wf, Bool.and_eq_true, offOk_iff, immOk_iff]

theorem wf_rd_iff (off : Nat) : (Stmt.rd off).wf = true ↔ off ≤ 0x3C ∧ off % 4 = 0 := offOk_iff off

theorem wf_cmd_iff (imm : Nat) : (Stmt.cmd imm).wf = true ↔ imm < 2 ^ 32 := immOk_iff imm

theorem wf_ldk_iff (imm : Nat) : (Stmt.ldk imm).wf = true ↔ imm < 2 ^ 32 := immOk_iff imm

theorem wf_ldf_iff (s c u : Nat) :
    (Stmt.ldf s c u).wf = true ↔ (s < 2 ^ 32 ∧ c < 2 ^ 32) ∧ u < 2 ^ 32 := by
  rw [Stmt.wf, Bool.and_eq_true, Bool.and_eq_true, immOk_iff, immOk_iff, immOk_iff]

theorem wf_ldt_iff (bytes : List Byte) : (Stmt.ldt bytes).wf = true ↔ bytes.length ≤ 16 := decide_eq_true_iff

theorem assemble_of_wf {st : Stmt} (h : st.wf = true) : st.assemble = some st.expand := if_pos h

theorem assemble_of_not_wf {st : Stmt} (h : ¬ st.wf = true) : st.assemble = none := if_neg h

/-- A statement assembles exactly when it is taken, and then to its expansion (R67, R69, R70). -/
theorem stmt_assemble_eq_some_iff {st : Stmt} {as : List Access} :
    st.assemble = some as ↔ st.wf = true ∧ st.expand = as := by
  rw [Stmt.assemble, Option.ite_none_right_eq_some, Option.some.injEq]

/-! ### The raw statements -/

/-- Settles O57: each statement is taken exactly in its ranges, and expands to its one access. -/
theorem rawStatementsExpand : Obligations.RawStatementsExpand := by
  refine ⟨fun off imm ho ha hi => ?_, fun off imm h => ?_, fun off ho ha => ?_, fun off h => ?_,
    fun imm hi => ?_, fun imm h => ?_⟩
  · exact assemble_of_wf ((wf_wr_iff off imm).mpr ⟨⟨ho, ha⟩, hi⟩)
  · exact assemble_of_not_wf (by rw [wf_wr_iff]; omega)
  · exact assemble_of_wf ((wf_rd_iff off).mpr ⟨ho, ha⟩)
  · exact assemble_of_not_wf (by rw [wf_rd_iff]; omega)
  · exact assemble_of_wf ((wf_cmd_iff imm).mpr hi)
  · exact assemble_of_not_wf (by rw [wf_cmd_iff]; omega)

/-! ### The command mnemonics -/

/-- A line that is one command mnemonic, in either case, is the write of the command's word to CMD (R68). -/
theorem assembleLine_mnemonic {line name : List Char} {i : Instr}
    (hline : lex (.plain []) line = some [.word name])
    (hname : mnemonics.lookup (name.map Char.toLower) = some i) :
    assembleLine line = some [cmdWrite (encode i)] := by
  have hstmt : parseStmt [.word name] = some (.mnemonic i) := by rw [parseStmt, bareStmt, hname]
  calc assembleLine line
    _ = (parseStmt [.word name]).bind Stmt.assemble := by rw [assembleLine, hline]; rfl
    _ = some [cmdWrite (encode i)] := by rw [hstmt]; rfl

/-- Settles O53: each line is one word, and the word is a command's name. -/
theorem mnemonicsExpand : Obligations.MnemonicsExpand :=
  ⟨assembleLine_mnemonic (i := .nop) rfl rfl, assembleLine_mnemonic (i := .enc) rfl rfl,
    assembleLine_mnemonic (i := .encu) rfl rfl, assembleLine_mnemonic (i := .dec) rfl rfl,
    assembleLine_mnemonic (i := .fmt) rfl rfl, assembleLine_mnemonic (i := .prs) rfl rfl⟩

/-! ### The pseudo-instructions -/

/-- `B` is the literal's bytes, and 0x00 from its end to the end of the buffer: what `getD` reads (R69). -/
theorem getD_eq_of_padded {bytes : List Byte} {B : Nat → Byte}
    (hin : ∀ i, i < bytes.length → bytes[i]? = some (B i))
    (hpad : ∀ i, bytes.length ≤ i → i < 16 → B i = 0x00#8) {i : Nat} (hi : i < 16) :
    bytes.getD i 0x00#8 = B i := by
  rw [List.getD_eq_getElem?_getD]
  by_cases h : i < bytes.length
  · rw [hin i h, Option.getD_some]
  · rw [List.getElem?_eq_none (Nat.le_of_not_lt h), Option.getD_none, hpad i (Nat.le_of_not_lt h) hi]

/-- The word `Wj` is the bytes of `B` it stands for, little-endian (R69). -/
theorem literalWord_eq_of_padded {bytes : List Byte} {B : Nat → Byte}
    (hin : ∀ i, i < bytes.length → bytes[i]? = some (B i))
    (hpad : ∀ i, bytes.length ≤ i → i < 16 → B i = 0x00#8) (j : Nat) (hj : j < 4) :
    literalWord bytes j = B (4 * j + 3) ++ B (4 * j + 2) ++ B (4 * j + 1) ++ B (4 * j) := by
  have hbyte : ∀ k < 4, bytes.getD (4 * j + k) 0x00#8 = B (4 * j + k) :=
    fun k hk => getD_eq_of_padded hin hpad (by omega)
  have hfirst : bytes.getD (4 * j) 0x00#8 = B (4 * j) := hbyte 0 (by omega)
  rw [literalWord, hbyte 3 (by omega), hbyte 2 (by omega), hbyte 1 (by omega), hfirst]

/-- Settles O54: a statement in its ranges gives its expansion, where the four words of `ldt` are the bytes of
`B`; one outside them gives nothing. -/
theorem pseudoInstructionsExpand : Obligations.PseudoInstructionsExpand := by
  refine ⟨fun n hn => ?_, fun n h => ?_, fun a b c ha hb hc => ?_, fun a b c h => ?_,
    fun bytes B hlen hin hpad => ?_, fun bytes h => ?_, rfl, rfl, rfl, rfl⟩
  · exact assemble_of_wf ((wf_ldk_iff n).mpr hn)
  · exact assemble_of_not_wf (by rw [wf_ldk_iff]; omega)
  · exact assemble_of_wf ((wf_ldf_iff a b c).mpr ⟨⟨ha, hb⟩, hc⟩)
  · exact assemble_of_not_wf (by rw [wf_ldf_iff]; omega)
  · have hword := literalWord_eq_of_padded hin hpad
    rw [assemble_of_wf ((wf_ldt_iff bytes).mpr hlen), Stmt.expand, hword 0 (by omega), hword 1 (by omega),
      hword 2 (by omega), hword 3 (by omega)]
    rfl
  · exact assemble_of_not_wf (by rw [wf_ldt_iff]; omega)

/-! ### Legal accesses -/

/-- The offset of an access keeps its two low bits in the 6 bits the block sees. -/
theorem ofNat_toNat_mod_four {off : Nat} (h : off % 4 = 0) : (BitVec.ofNat 6 off).toNat % 4 = 0 := by
  rw [BitVec.toNat_ofNat]
  omega

theorem wrAccess_legal {off : Nat} (imm : Nat) (h : off % 4 = 0) : (wrAccess off imm).legal = true :=
  (legal_iff _).mpr ⟨rfl, ofNat_toNat_mod_four h⟩

theorem rdAccess_legal {off : Nat} (h : off % 4 = 0) : (rdAccess off).legal = true :=
  (legal_iff _).mpr ⟨rfl, ofNat_toNat_mod_four h⟩

/-- A statement the assembler takes expands to legal accesses: the offset of `wr` and `rd` is checked, every
other is one of the window's words (R42, R67). -/
theorem expand_legal {st : Stmt} (h : st.wf = true) : ∀ a ∈ st.expand, a.legal = true := by
  cases st with
  | wr off imm =>
    obtain ⟨⟨-, hoff⟩, -⟩ := (wf_wr_iff off imm).mp h
    exact List.forall_mem_singleton.mpr (wrAccess_legal imm hoff)
  | rd off =>
    obtain ⟨-, hoff⟩ := (wf_rd_iff off).mp h
    exact List.forall_mem_singleton.mpr (rdAccess_legal hoff)
  | cmd | mnemonic | ldk | ldf | ldt | rdk | rdf | rdt | rds =>
    exact List.all_eq_true.mp rfl

/-- Everything a line can give: nothing, where it holds no statement, or its statement's accesses (R67). -/
theorem assembleLine_cases {line : List Char} {as : List Access} (h : assembleLine line = some as) :
    as = [] ∨ ∃ st : Stmt, st.assemble = some as := by
  obtain ⟨ts, -, hts⟩ := Option.bind_eq_some_iff.mp h
  have hstmt : ∃ us, assembleStmt us = some as := by
    unfold assembleTokens at hts
    split at hts <;> exact ⟨_, hts⟩
  obtain ⟨us, hus⟩ := hstmt
  unfold assembleStmt at hus
  split at hus
  · exact .inl (Option.some.inj hus).symm
  · obtain ⟨st, -, hst⟩ := Option.bind_eq_some_iff.mp hus
    exact .inr ⟨st, hst⟩

theorem assembleLine_legal {line : List Char} {as : List Access} (h : assembleLine line = some as) :
    ∀ a ∈ as, a.legal = true := by
  rcases assembleLine_cases h with rfl | ⟨st, hst⟩
  · exact List.forall_mem_nil _
  · obtain ⟨hwf, rfl⟩ := stmt_assemble_eq_some_iff.mp hst
    exact expand_legal hwf

/-- A program assembles line by line (R70). -/
theorem assemble_cons_eq_some {line : List Char} {lines : List (List Char)} {as : List Access}
    (h : assemble (line :: lines) = some as) :
    ∃ bs cs, assembleLine line = some bs ∧ assemble lines = some cs ∧ as = bs ++ cs := by
  obtain ⟨css, hcss, rfl⟩ := Option.map_eq_some_iff.mp h
  rw [List.mapM_cons] at hcss
  obtain ⟨bs, hbs, hrest⟩ := Option.bind_eq_some_iff.mp hcss
  obtain ⟨ls, hls, hcons⟩ := Option.bind_eq_some_iff.mp hrest
  cases hcons
  exact ⟨bs, ls.flatten, hbs, by rw [assemble, hls, Option.map_some], List.flatten_cons⟩

/-- Settles O55, by induction on the lines. -/
theorem assembledAccessesAreLegal : Obligations.AssembledAccessesAreLegal := by
  intro lines
  induction lines with
  | nil =>
    intro as h
    cases h
    exact List.forall_mem_nil _
  | cons line lines ih =>
    intro as h
    obtain ⟨bs, cs, hbs, hcs, rfl⟩ := assemble_cons_eq_some h
    exact List.forall_mem_append.mpr ⟨assembleLine_legal hbs, ih cs hcs⟩

end Sys2Proof.Machine.Asm
end

