-- ==== Sys2Proof/Proofs/PackFields.lean ====
section
/-! PROOFS. The packers and Unpack: the three fields of a packed word, and which triples come back (R80 to R88). -/

namespace Sys2Proof.Machine

/-! ### Slices of a word -/

/-- A slice that starts at or above the shift amount is the slice of the operand that much lower. -/
theorem extractLsb'_shiftLeft_of_le {w n start len : Nat} (x : BitVec w) (hn : n ≤ start) (hw : start + len ≤ w) :
    (x <<< n).extractLsb' start len = x.extractLsb' (start - n) len := by
  apply BitVec.eq_of_getElem_eq
  intro i hi
  have hin : start + i < w := by omega
  have habove : ¬ start + i < n := by omega
  rw [BitVec.getElem_extractLsb', BitVec.getElem_extractLsb', BitVec.getLsbD_shiftLeft, decide_eq_true hin,
    decide_eq_false habove, Bool.not_false, Bool.true_and, Bool.true_and, Nat.sub_add_comm hn]

/-- A slice that ends at or below the shift amount reads the zeros shifted in. -/
theorem extractLsb'_shiftLeft_of_add_le {w n start len : Nat} (x : BitVec w) (h : start + len ≤ n) :
    (x <<< n).extractLsb' start len = 0#len := by
  apply BitVec.eq_of_getElem_eq
  intro i hi
  have hbelow : start + i < n := by omega
  simp [hbelow]

theorem extractLsb'_eq_zero_of_lt {w start : Nat} {x : BitVec w} (len : Nat) (h : x.toNat < 2 ^ start) :
    x.extractLsb' start len = 0#len := by
  apply BitVec.eq_of_toNat_eq
  rw [BitVec.extractLsb'_toNat, Nat.shiftRight_eq_zero _ _ h, Nat.zero_mod, BitVec.toNat_ofNat, Nat.zero_mod]

/-! ### The three fields of a word -/

/-- A word is its three fields side by side (R24). -/
theorem append_fields (k : Word) : serviceField k ++ categoryField k ++ subcodeField k = k := by
  have hupper : serviceField k ++ categoryField k = k.extractLsb' 12 20 :=
    BitVec.extractLsb'_append_extractLsb'_eq_extractLsb' rfl
  have hword : k.extractLsb' 12 20 ++ subcodeField k = k.extractLsb' 0 32 :=
    BitVec.extractLsb'_append_extractLsb'_eq_extractLsb' rfl
  rw [hupper, hword, BitVec.extractLsb'_eq_self]

theorem eq_of_fields {k k' : Word} (hs : serviceField k = serviceField k')
    (hc : categoryField k = categoryField k') (hu : subcodeField k = subcodeField k') : k = k' := by
  rw [← append_fields k, hs, hc, hu, append_fields]

theorem serviceField_packMasked (s c u : Word) :
    serviceField (packMasked s c u) = s.extractLsb' 0 12 := by
  rw [serviceField, packMasked, BitVec.extractLsb'_append_eq_of_le (by decide), BitVec.extractLsb'_append_eq_left]

theorem categoryField_packMasked (s c u : Word) :
    categoryField (packMasked s c u) = c.extractLsb' 0 8 := by
  rw [categoryField, packMasked, BitVec.extractLsb'_append_eq_of_le le_rfl, BitVec.extractLsb'_append_eq_right]

theorem subcodeField_packMasked (s c u : Word) :
    subcodeField (packMasked s c u) = u.extractLsb' 0 12 := by
  rw [subcodeField, packMasked, BitVec.extractLsb'_append_eq_right]

/-- The service bits of the unmasked formula: what c and u have above their fields spills in (R82). -/
theorem serviceField_packUnchecked (s c u : Word) :
    serviceField (packUnchecked s c u) =
      s.extractLsb' 0 12 ||| c.extractLsb' 8 12 ||| u.extractLsb' 20 12 := by
  rw [serviceField, packUnchecked, BitVec.extractLsb'_or, BitVec.extractLsb'_or,
    extractLsb'_shiftLeft_of_le s (by decide) (by decide), extractLsb'_shiftLeft_of_le c (by decide) (by decide)]

/-- The category bits of the unmasked formula: s is shifted past them, u spills in (R82). -/
theorem categoryField_packUnchecked (s c u : Word) :
    categoryField (packUnchecked s c u) = c.extractLsb' 0 8 ||| u.extractLsb' 12 8 := by
  rw [categoryField, packUnchecked, BitVec.extractLsb'_or, BitVec.extractLsb'_or,
    extractLsb'_shiftLeft_of_add_le s (by decide), extractLsb'_shiftLeft_of_le c (by decide) (by decide),
    BitVec.zero_or]

/-- The subcode bits of the unmasked formula: s and c are shifted past them (R82). -/
theorem subcodeField_packUnchecked (s c u : Word) :
    subcodeField (packUnchecked s c u) = u.extractLsb' 0 12 := by
  rw [subcodeField, packUnchecked, BitVec.extractLsb'_or, BitVec.extractLsb'_or,
    extractLsb'_shiftLeft_of_add_le s (by decide), extractLsb'_shiftLeft_of_add_le c (by decide),
    BitVec.zero_or, BitVec.zero_or]

/-- In range nothing spills, field by field (R84). -/
theorem packUnchecked_eq_packMasked {c u : Word} (s : Word) (hc : c.toNat < 2 ^ 8) (hu : u.toNat < 2 ^ 12) :
    packUnchecked s c u = packMasked s c u := by
  have hu' : u.toNat < 2 ^ 20 := by omega
  apply eq_of_fields
  · rw [serviceField_packUnchecked, serviceField_packMasked, extractLsb'_eq_zero_of_lt 12 hc,
      extractLsb'_eq_zero_of_lt 12 hu', BitVec.or_zero, BitVec.or_zero]
  · rw [categoryField_packUnchecked, categoryField_packMasked, extractLsb'_eq_zero_of_lt 8 hu, BitVec.or_zero]
  · rw [subcodeField_packUnchecked, subcodeField_packMasked]

/-! ### Unpack -/

theorem Fields.eq_of_toNat_eq {f g : Fields} (hs : f.service.toNat = g.service.toNat)
    (hc : f.category.toNat = g.category.toNat) (hu : f.subcode.toNat = g.subcode.toNat) : f = g := by
  cases f
  cases g
  rw [Fields.mk.injEq]
  exact ⟨BitVec.eq_of_toNat_eq hs, BitVec.eq_of_toNat_eq hc, BitVec.eq_of_toNat_eq hu⟩

@[simp] theorem unpack_service_toNat (k : Word) : (unpack k).service.toNat = k.toNat / 2 ^ 20 := by
  rw [unpack, BitVec.toNat_setWidth_of_le (by decide), serviceField_toNat]

@[simp] theorem unpack_category_toNat (k : Word) :
    (unpack k).category.toNat = k.toNat / 2 ^ 12 % 2 ^ 8 := by
  rw [unpack, BitVec.toNat_setWidth_of_le (by decide), categoryField_toNat]

@[simp] theorem unpack_subcode_toNat (k : Word) : (unpack k).subcode.toNat = k.toNat % 2 ^ 12 := by
  rw [unpack, BitVec.toNat_setWidth_of_le (by decide), subcodeField_toNat]

/-- Unpack gives in-range values only (R83). -/
theorem unpack_inRange (k : Word) :
    (unpack k).service.toNat < 2 ^ 12 ∧ (unpack k).category.toNat < 2 ^ 8 ∧
      (unpack k).subcode.toNat < 2 ^ 12 := by
  have := k.isLt
  rw [unpack_service_toNat, unpack_category_toNat, unpack_subcode_toNat]
  omega

theorem inRange_of_unpack_eq {k s c u : Word} (h : unpack k = ⟨s, c, u⟩) :
    s.toNat < 2 ^ 12 ∧ c.toNat < 2 ^ 8 ∧ u.toNat < 2 ^ 12 := by
  simpa only [h] using unpack_inRange k

/-- Through the masked packer each value comes back modulo its field width (R86). -/
theorem unpack_packMasked_toNat (s c u : Word) :
    (unpack (packMasked s c u)).service.toNat = s.toNat % 2 ^ 12 ∧
      (unpack (packMasked s c u)).category.toNat = c.toNat % 2 ^ 8 ∧
      (unpack (packMasked s c u)).subcode.toNat = u.toNat % 2 ^ 12 := by
  rw [unpack_service_toNat, unpack_category_toNat, unpack_subcode_toNat, packMasked_toNat]
  omega

theorem unpack_packMasked {s c u : Word} (hs : s.toNat < 2 ^ 12) (hc : c.toNat < 2 ^ 8) (hu : u.toNat < 2 ^ 12) :
    unpack (packMasked s c u) = ⟨s, c, u⟩ := by
  obtain ⟨service, category, subcode⟩ := unpack_packMasked_toNat s c u
  exact Fields.eq_of_toNat_eq (service.trans (Nat.mod_eq_of_lt hs)) (category.trans (Nat.mod_eq_of_lt hc))
    (subcode.trans (Nat.mod_eq_of_lt hu))

theorem unpack_packUnchecked {s c u : Word} (hs : s.toNat < 2 ^ 12) (hc : c.toNat < 2 ^ 8)
    (hu : u.toNat < 2 ^ 12) : unpack (packUnchecked s c u) = ⟨s, c, u⟩ := by
  rw [packUnchecked_eq_packMasked s hc hu, unpack_packMasked hs hc hu]

/-- The mask cuts off only the zeros Unpack put there (R87). -/
theorem packMasked_unpack (k : Word) :
    packMasked (unpack k).service (unpack k).category (unpack k).subcode = k := by
  rw [packMasked, unpack, BitVec.extractLsb'_setWidth_of_le (by decide),
    BitVec.extractLsb'_setWidth_of_le (by decide), BitVec.extractLsb'_setWidth_of_le (by decide),
    BitVec.extractLsb'_eq_self, BitVec.extractLsb'_eq_self, BitVec.extractLsb'_eq_self, append_fields]

theorem packUnchecked_unpack (k : Word) :
    packUnchecked (unpack k).service (unpack k).category (unpack k).subcode = k := by
  obtain ⟨-, hc, hu⟩ := unpack_inRange k
  rw [packUnchecked_eq_packMasked _ hc hu, packMasked_unpack]

/-! ### The statements -/

/-- Settles O19: in range nothing spills, and the mask cuts off nothing. -/
theorem packersAgreeInRange : Obligations.PackersAgreeInRange := by
  intro s c u hs hc hu
  refine ⟨(packUnchecked_eq_packMasked s hc hu).symm, ?_⟩
  rw [packMasked_toNat, Nat.mod_eq_of_lt hs, Nat.mod_eq_of_lt hc, Nat.mod_eq_of_lt hu]

/-- Settles O20. -/
theorem unpackOfPackInRange : Obligations.UnpackOfPackInRange :=
  fun _ _ _ hs hc hu => ⟨unpack_packMasked hs hc hu, unpack_packUnchecked hs hc hu⟩

/-- Settles O21. The unchecked packer's triple is (0, 0x100, 0): bit 8 of the category spills into the service,
which comes back as 1. That only an in-range triple comes back is a fact about Unpack, not about the packer. -/
theorem unpackOfMaskedPack : Obligations.UnpackOfMaskedPack := by
  refine ⟨unpack_packMasked_toNat, ⟨0#32, 0x100#32, 0#32, by decide⟩, fun s c u => ⟨?_, ?_⟩⟩
  · exact ⟨inRange_of_unpack_eq, fun ⟨hs, hc, hu⟩ => unpack_packMasked hs hc hu⟩
  · exact ⟨inRange_of_unpack_eq, fun ⟨hs, hc, hu⟩ => unpack_packUnchecked hs hc hu⟩

/-- Settles O22. -/
theorem packOfUnpack : Obligations.PackOfUnpack :=
  fun k => ⟨packMasked_unpack k, packUnchecked_unpack k⟩

/-- Settles O23: the unchecked packer's values are the masked packer's, the triples being in range. -/
theorem boundaryValues : Obligations.BoundaryValues := by
  have hzero : packMasked 0#32 0#32 0#32 = 0x00000000#32 := by decide
  have hones : packMasked 4095#32 255#32 4095#32 = 0xFFFFFFFF#32 := by decide
  refine ⟨hzero, ?_, hones, ?_, by decide, by decide⟩
  · rw [packUnchecked_eq_packMasked _ (by decide) (by decide), hzero]
  · rw [packUnchecked_eq_packMasked _ (by decide) (by decide), hones]

end Sys2Proof.Machine
end

