-- ==== Sys2Proof/Proofs/PackCommands.lean ====
section
/-! PROOFS. The commands ENC, ENCU and DEC: what each leaves, and that packing undoes DEC (R80 to R83, R87, R90,
R95, R100). -/

namespace Sys2Proof.Machine

/-! ### What the commands leave -/

theorem exec_enc_eq (s : State) :
    exec .enc s = .next (s.writeK (packMasked s.fs s.fc s.fu)).clearStatus := rfl

theorem exec_encu_eq (s : State) :
    exec .encu s = .next (s.writeK (packUnchecked s.fs s.fc s.fu)).clearStatus := rfl

/-- The state DEC leaves: the fields of K in FS, FC and FU, and STATUS zero (R100). -/
def State.decoded (s : State) : State :=
  (((s.writeFs (unpack s.k).service).writeFc (unpack s.k).category).writeFu (unpack s.k).subcode).clearStatus

theorem exec_dec_eq (s : State) : exec .dec s = .next s.decoded := rfl

theorem State.decoded_frame (s : State) :
    s.decoded =
      { s with
        fs := (unpack s.k).service, fc := (unpack s.k).category, fu := (unpack s.k).subcode
        err := false, ill := false, cause := .none } := rfl

/-- After DEC, writing to K what it holds and clearing STATUS changes nothing. -/
theorem State.writeK_decoded (s : State) : (s.decoded.writeK s.k).clearStatus = s.decoded := rfl

/-- The masked packer gives back the K that DEC took apart, so ENC writes what is there (R87, R90). -/
theorem exec_enc_decoded (s : State) : exec .enc s.decoded = .next s.decoded := by
  have hk : packMasked s.decoded.fs s.decoded.fc s.decoded.fu = s.k := packMasked_unpack s.k
  rw [exec_enc_eq, hk, State.writeK_decoded]

/-- The same for ENCU: the fields are in range, so nothing spills (R87, R95). -/
theorem exec_encu_decoded (s : State) : exec .encu s.decoded = .next s.decoded := by
  have hk : packUnchecked s.decoded.fs s.decoded.fc s.decoded.fu = s.k := packUnchecked_unpack s.k
  rw [exec_encu_eq, hk, State.writeK_decoded]

/-! ### The statements -/

/-- Settles O7. -/
theorem encPacksMaskedFields : Obligations.EncPacksMaskedFields :=
  ⟨decode_of_toNat_eq_op rfl, fun s => ⟨packMasked s.fs s.fc s.fu, _, exec_enc_eq s, State.status_clearStatus _,
    rfl, rfl, packMasked_toNat s.fs s.fc s.fu⟩⟩

/-- Settles O8: the three fields of the unmasked formula are the slices R82 lists. -/
theorem encuPacksUnmaskedFields : Obligations.EncuPacksUnmaskedFields :=
  ⟨decode_of_toNat_eq_op rfl, fun s => ⟨packUnchecked s.fs s.fc s.fu, _, exec_encu_eq s,
    State.status_clearStatus _, rfl, rfl, rfl, serviceField_packUnchecked s.fs s.fc s.fu,
    categoryField_packUnchecked s.fs s.fc s.fu, subcodeField_packUnchecked s.fs s.fc s.fu⟩⟩

/-- Settles O9. -/
theorem decUnpacksFields : Obligations.DecUnpacksFields :=
  ⟨decode_of_toNat_eq_op rfl, fun s => ⟨_, _, _, _, exec_dec_eq s, State.status_clearStatus _, s.decoded_frame,
    rfl, unpack_service_toNat s.k, unpack_category_toNat s.k, unpack_subcode_toNat s.k⟩⟩

/-- Settles O58: either packer gives back K from the fields DEC left. -/
theorem packAfterDecIsIdentity : Obligations.PackAfterDecIsIdentity :=
  fun s => ⟨s.decoded, exec_dec_eq s, s.decoded_frame, unpack_service_toNat s.k, unpack_category_toNat s.k,
    unpack_subcode_toNat s.k, exec_enc_decoded s, exec_encu_decoded s, rfl⟩

end Sys2Proof.Machine
end

