-- ==== Sys2Proof/Proofs/TextSegments.lean ====
section
/-! PROOFS. Hex digits and the values of segments: HexDigit, HexValue, SegValue, and what case and leading zeros
do to them (R111, R115, R117, R119). -/

namespace Sys2Proof.Machine

/-! ### Digits -/

/-- HexValue with its ranges read as numbers (R115). -/
theorem hexValue_eq (b : Byte) :
    hexValue b =
      if 0x30 ≤ b.toNat ∧ b.toNat ≤ 0x39 then some (b.toNat - 0x30)
      else if 0x41 ≤ b.toNat ∧ b.toNat ≤ 0x46 then some (b.toNat - 0x41 + 10)
      else if 0x61 ≤ b.toNat ∧ b.toNat ≤ 0x66 then some (b.toNat - 0x61 + 10)
      else none := by
  simp only [hexValue, BitVec.le_def, BitVec.toNat_ofNat, Nat.reducePow, Nat.reduceMod]

theorem hexValue_decimal {b : Byte} (hlo : 0x30 ≤ b.toNat) (hhi : b.toNat ≤ 0x39) :
    hexValue b = some (b.toNat - 0x30) := by
  rw [hexValue_eq, if_pos ⟨hlo, hhi⟩]

theorem hexValue_upper {b : Byte} (hlo : 0x41 ≤ b.toNat) (hhi : b.toNat ≤ 0x46) :
    hexValue b = some (b.toNat - 0x41 + 10) := by
  rw [hexValue_eq, if_neg (by omega), if_pos ⟨hlo, hhi⟩]

theorem hexValue_lower {b : Byte} (hlo : 0x61 ≤ b.toNat) (hhi : b.toNat ≤ 0x66) :
    hexValue b = some (b.toNat - 0x61 + 10) := by
  rw [hexValue_eq, if_neg (by omega), if_neg (by omega), if_pos ⟨hlo, hhi⟩]

theorem hexValue_eq_none {b : Byte}
    (h : b.toNat < 0x30 ∨ 0x39 < b.toNat ∧ b.toNat < 0x41 ∨ 0x46 < b.toNat ∧ b.toNat < 0x61 ∨ 0x66 < b.toNat) :
    hexValue b = none := by
  rw [hexValue_eq, if_neg (by omega), if_neg (by omega), if_neg (by omega)]

theorem hexDigit_toNat (n : BitVec 4) :
    (hexDigit n).toNat = if n.toNat < 10 then 0x30 + n.toNat else 0x41 + (n.toNat - 10) := by
  revert n; decide

/-- HexValue undoes HexDigit, so no two values share a digit. -/
theorem hexDigit_injective : Function.Injective hexDigit := by
  intro m n h
  have hval : some m.toNat = some n.toNat := by rw [← hexValue_hexDigit, h, hexValue_hexDigit]
  exact BitVec.eq_of_toNat_eq (Option.some.inj hval)

/-- Settles O24: one lemma per range of bytes. -/
theorem hexDigitsAndValues : Obligations.HexDigitsAndValues :=
  ⟨hexDigit_toNat, fun _ => ⟨hexValue_decimal, hexValue_upper, hexValue_lower, hexValue_eq_none⟩⟩

/-! ### The value of a segment -/

/-- The digits of a segment are the values of its bytes, one for each. -/
theorem mapM_hexValue_eq_some_iff {g : List Byte} {ds : List Nat} :
    g.mapM hexValue = some ds ↔ List.Forall₂ (fun b d => hexValue b = some d) g ds := by
  induction g generalizing ds with
  | nil => simp [eq_comm]
  | cons b g ih =>
    simp only [List.mapM_cons, List.forall₂_cons_left_iff, ← ih, Option.bind_eq_bind, Option.bind_eq_some_iff,
      Option.pure_def, Option.some.injEq]
    constructor
    · rintro ⟨d, hd, es, hes, rfl⟩
      exact ⟨d, es, hd, hes, rfl⟩
    · rintro ⟨d, es, hd, hes, rfl⟩
      exact ⟨d, hd, es, hes, rfl⟩

theorem segValue_eq_some_iff {g : List Byte} {v : Nat} :
    segValue g = some v ↔ g ≠ [] ∧ ∃ ds, g.mapM hexValue = some ds ∧ numeral ds = v := by
  refine ⟨segValue_eq_some, fun ⟨hg, ds, hds, hv⟩ => ?_⟩
  rw [segValue, if_neg hg, hds, Option.map_some, hv]

/-- Horner's rule from an accumulator: what was read so far stands above the digits to come. -/
theorem foldl_eq_numeral (ds : List Nat) (acc : Nat) :
    ds.foldl (fun acc d => 16 * acc + d) acc = acc * 16 ^ ds.length + numeral ds := by
  induction ds generalizing acc with
  | nil => simp [numeral]
  | cons d ds ih => rw [List.foldl_cons, ih, numeral, List.length_cons]; ring

/-- Settles O26: the digits are the bytes' values, and Horner's rule gives their numeral. -/
theorem segmentValueIsPositional : Obligations.SegmentValueIsPositional := by
  intro g v
  simp only [segValue_eq_some_iff, mapM_hexValue_eq_some_iff, foldl_eq_numeral, Nat.zero_mul, Nat.zero_add,
    eq_comm (a := v)]

/-- The digits of a byte string written digit by digit are the values written. -/
theorem mapM_hexValue_map_hexDigit (ns : List (BitVec 4)) :
    (ns.map hexDigit).mapM hexValue = some (ns.map BitVec.toNat) := by
  induction ns with
  | nil => rfl
  | cons n ns ih => simp only [List.map_cons, List.mapM_cons, hexValue_hexDigit, ih]; rfl

theorem segValue_map_hexDigit {ns : List (BitVec 4)} (h : ns ≠ []) :
    segValue (ns.map hexDigit) = some (numeral (ns.map BitVec.toNat)) :=
  segValue_eq_some_iff.mpr ⟨by simpa using h, _, mapM_hexValue_map_hexDigit ns, rfl⟩

/-! ### Case and leading zeros -/

theorem lowerHex_of_upper {b : Byte} (hlo : 0x41 ≤ b.toNat) (hhi : b.toNat ≤ 0x46) :
    (lowerHex b).toNat = b.toNat + 0x20 := by
  have hb : 0x41#8 ≤ b ∧ b ≤ 0x46#8 := ⟨hlo, hhi⟩
  rw [lowerHex, if_pos hb, BitVec.toNat_add, BitVec.toNat_ofNat]
  omega

theorem lowerHex_of_not_upper {b : Byte} (h : ¬ (0x41 ≤ b.toNat ∧ b.toNat ≤ 0x46)) : lowerHex b = b :=
  if_neg h

/-- A letter has the value of its lower-case form (R115). -/
theorem hexValue_lowerHex (b : Byte) : hexValue (lowerHex b) = hexValue b := by
  by_cases h : 0x41 ≤ b.toNat ∧ b.toNat ≤ 0x46
  · obtain ⟨hlo, hhi⟩ := h
    have hlower := lowerHex_of_upper hlo hhi
    rw [hexValue_upper hlo hhi, hexValue_lower (by omega) (by omega), hlower]
    congr 1
  · rw [lowerHex_of_not_upper h]

/-- Lower-casing neither makes nor removes a separator. -/
theorem lowerHex_eq_dot_iff (b : Byte) : lowerHex b = dot ↔ b = dot := by
  have hdot : dot.toNat = 0x2E := rfl
  by_cases h : 0x41 ≤ b.toNat ∧ b.toNat ≤ 0x46
  · obtain ⟨hlo, hhi⟩ := h
    have hlower := lowerHex_of_upper hlo hhi
    rw [← BitVec.toNat_inj, ← BitVec.toNat_inj]
    omega
  · rw [lowerHex_of_not_upper h]

theorem segValue_map_lowerHex (g : List Byte) : segValue (g.map lowerHex) = segValue g := by
  have hdigits : hexValue ∘ lowerHex = hexValue := funext hexValue_lowerHex
  simp only [segValue, List.map_eq_nil_iff, List.mapM_map, hdigits]

/-- A leading 0 adds nothing to the numeral; before an empty segment it would make a value. -/
theorem segValue_zero_cons {g : List Byte} (h : g ≠ []) : segValue (0x30#8 :: g) = segValue g := by
  have hzero : hexValue 0x30#8 = some 0 := by decide
  rw [segValue, segValue, if_neg (List.cons_ne_nil _ _), if_neg h, List.mapM_cons, hzero]
  cases g.mapM hexValue with
  | none => rfl
  | some ds => simp [numeral]

end Sys2Proof.Machine
end

