-- ==== Sys2Proof/Proofs/TextParse.lean ====
section
/-! PROOFS. Split and Parse: the segments of a string, what Parse accepts, and why it fails (R116, R118, R119,
R121, R155). -/

namespace Sys2Proof.Machine

/-! ### Split -/

theorem split_dot_cons (s : List Byte) : split (dot :: s) = [] :: split s := by
  rw [split, if_pos rfl]

/-- A byte that is no separator joins the first segment. -/
theorem split_cons_of_ne_dot {b : Byte} (hb : b ≠ dot) (s : List Byte) :
    ∃ g gs, split s = g :: gs ∧ split (b :: s) = (b :: g) :: gs := by
  obtain ⟨g, gs, hs⟩ := List.exists_cons_of_ne_nil (split_ne_nil s)
  exact ⟨g, gs, hs, by rw [split, if_neg hb, hs]⟩

theorem dot_not_mem_of_mem_split {s g : List Byte} (h : g ∈ split s) : dot ∉ g := by
  induction s generalizing g with
  | nil => rw [List.mem_singleton.mp h]; exact List.not_mem_nil
  | cons b s ih =>
    by_cases hb : b = dot
    · rw [hb, split_dot_cons, List.mem_cons] at h
      rcases h with rfl | h
      · simp
      · exact ih h
    · obtain ⟨f, fs, hs, hbs⟩ := split_cons_of_ne_dot hb s
      rw [hs] at ih
      rw [hbs, List.mem_cons] at h
      rcases h with rfl | h
      · have hf := ih List.mem_cons_self
        simp [hf, Ne.symm hb]
      · exact ih (List.mem_cons_of_mem _ h)

/-- Joining the segments undoes the cut. -/
theorem intercalate_split (s : List Byte) : [dot].intercalate (split s) = s := by
  induction s with
  | nil => rfl
  | cons b s ih =>
    by_cases hb : b = dot
    · obtain ⟨g, gs, hs⟩ := List.exists_cons_of_ne_nil (split_ne_nil s)
      rw [hb, split_dot_cons, hs, List.intercalate_cons_cons, ← hs, ih]
      rfl
    · obtain ⟨g, gs, hs, hbs⟩ := split_cons_of_ne_dot hb s
      rw [hs] at ih
      cases gs with
      | nil =>
        rw [List.intercalate_singleton] at ih
        rw [hbs, List.intercalate_singleton, ih]
      | cons g' gs =>
        rw [hbs, List.intercalate_cons_cons, List.cons_append, List.cons_append, ← List.intercalate_cons_cons, ih]

theorem split_length (s : List Byte) : (split s).length = s.count dot + 1 := by
  induction s with
  | nil => rfl
  | cons b s ih =>
    by_cases hb : b = dot
    · rw [hb, split_dot_cons, List.length_cons, ih, List.count_cons_self]
    · obtain ⟨g, gs, hs, hbs⟩ := split_cons_of_ne_dot hb s
      rw [hbs, List.count_cons_of_ne hb, ← ih, hs]
      rfl

/-- Settles O27. -/
theorem splitCutsAtEverySeparator : Obligations.SplitCutsAtEverySeparator :=
  fun s => ⟨fun _ => dot_not_mem_of_mem_split, intercalate_split s, split_length s⟩

/-- Two separators leave three segments. -/
theorem exists_segments_of_count_eq_two {s : List Byte} (h : s.count dot = 2) :
    ∃ a b c, s = a ++ [dot] ++ b ++ [dot] ++ c ∧ dot ∉ a ∧ dot ∉ b ∧ dot ∉ c := by
  have hlength : (split s).length = 3 := by rw [split_length, h]
  obtain ⟨a, b, c, hs⟩ := List.length_eq_three.mp hlength
  have hmem : ∀ g ∈ [a, b, c], dot ∉ g := fun g hg => dot_not_mem_of_mem_split (hs ▸ hg)
  refine ⟨a, b, c, ?_, hmem a (by simp), hmem b (by simp), hmem c (by simp)⟩
  rw [← intercalate_split s, hs, List.intercalate_cons_cons, List.intercalate_cons_cons,
    List.intercalate_singleton]
  simp

/-! ### The three ends of Parse before its loop: LENGTH, SEGMENT_COUNT, or three segments -/

theorem parse_of_gt {n : Nat} (t : Vector Byte 16) (h : 16 < n) : parse t n = .error .length :=
  if_pos h

theorem parse_of_count_ne_two {t : Vector Byte 16} {n : Nat} (hn : n ≤ 16)
    (h : (bufPrefix t n).count dot ≠ 2) : parse t n = .error .segmentCount := by
  have hlength := split_length (bufPrefix t n)
  rw [parse, if_neg (by simpa using hn)]
  split
  · next hs =>
    rw [hs] at hlength
    exact absurd (Nat.succ.inj hlength).symm h
  · rfl

/-- What Parse is given, by the order of R155: too long, not two separators, or three segments. -/
theorem parse_cases (t : Vector Byte 16) (n : Nat) :
    16 < n ∨ (n ≤ 16 ∧ (bufPrefix t n).count dot ≠ 2) ∨
      (n ≤ 16 ∧ ∃ a b c, bufPrefix t n = a ++ [dot] ++ b ++ [dot] ++ c ∧ dot ∉ a ∧ dot ∉ b ∧ dot ∉ c) := by
  by_cases hn : n ≤ 16
  · by_cases h : (bufPrefix t n).count dot = 2
    · exact .inr (.inr ⟨hn, exists_segments_of_count_eq_two h⟩)
    · exact .inr (.inl ⟨hn, h⟩)
  · exact .inl (Nat.lt_of_not_le hn)

/-! ### The loop of Parse, segment by segment -/

theorem parseFields_service_error {a : List Byte} {e : Cause} (b c : List Byte)
    (ha : fieldValue 12 a = .error e) : parseFields a b c = .error e := by
  simp only [parseFields, Config.svcW, ha]

theorem parseFields_category_error {a b : List Byte} {va : Nat} {e : Cause} (c : List Byte)
    (ha : fieldValue 12 a = .ok va) (hb : fieldValue 8 b = .error e) : parseFields a b c = .error e := by
  simp only [parseFields, Config.svcW, Config.catW, ha, hb]

theorem parseFields_subcode_error {a b c : List Byte} {va vb : Nat} {e : Cause}
    (ha : fieldValue 12 a = .ok va) (hb : fieldValue 8 b = .ok vb) (hc : fieldValue 12 c = .error e) :
    parseFields a b c = .error e := by
  simp only [parseFields, Config.svcW, Config.catW, Config.subW, ha, hb, hc]

theorem parseFields_congr {a b c a' b' c' : List Byte} (ha : segValue a = segValue a')
    (hb : segValue b = segValue b') (hc : segValue c = segValue c') :
    parseFields a b c = parseFields a' b' c' := by
  simp only [parseFields, fieldValue, ha, hb, hc]

/-! ### What Parse accepts -/

/-- A word is the packed code of three values in range exactly when it is the sum of them shifted (R84). -/
theorem eq_packMasked_ofNat_iff {k : Word} {va vb vc : Nat} (ha : va < 2 ^ 12) (hb : vb < 2 ^ 8)
    (hc : vc < 2 ^ 12) :
    k = packMasked (BitVec.ofNat 32 va) (BitVec.ofNat 32 vb) (BitVec.ofNat 32 vc) ↔
      k.toNat = va * 2 ^ 20 + vb * 2 ^ 12 + vc := by
  rw [← BitVec.toNat_inj, packMasked_toNat, BitVec.toNat_ofNat, BitVec.toNat_ofNat, BitVec.toNat_ofNat]
  omega

/-- Three groups of hex digits whose values fit their fields, and the code they make (R118). -/
theorem parse_ok {t : Vector Byte 16} {n : Nat} {k : Word} {a b c : List Byte} {va vb vc : Nat} (hn : n ≤ 16)
    (htext : bufPrefix t n = a ++ [dot] ++ b ++ [dot] ++ c)
    (ha : segValue a = some va) (hb : segValue b = some vb) (hc : segValue c = some vc)
    (hva : va < 2 ^ 12) (hvb : vb < 2 ^ 8) (hvc : vc < 2 ^ 12)
    (hk : k.toNat = va * 2 ^ 20 + vb * 2 ^ 12 + vc) : parse t n = .ok k := by
  rw [parse_of_three hn htext (dot_not_mem_of_segValue ha) (dot_not_mem_of_segValue hb)
    (dot_not_mem_of_segValue hc), parseFields_ok_iff]
  exact ⟨va, vb, vc, fieldValue_ok_iff.mpr ⟨ha, hva⟩, fieldValue_ok_iff.mpr ⟨hb, hvb⟩,
    fieldValue_ok_iff.mpr ⟨hc, hvc⟩, (eq_packMasked_ofNat_iff hva hvb hvc).mpr hk⟩

/-- Settles O28: of the three ends of Parse only the loop over three segments can succeed. -/
theorem parseAcceptsExactly : Obligations.ParseAcceptsExactly := by
  intro t n k
  constructor
  · intro h
    rcases parse_cases t n with hn | ⟨hn, hcount⟩ | ⟨hn, a, b, c, htext, ha, hb, hc⟩
    · rw [parse_of_gt t hn] at h
      cases h
    · rw [parse_of_count_ne_two hn hcount] at h
      cases h
    · rw [parse_of_three hn htext ha hb hc, parseFields_ok_iff] at h
      obtain ⟨va, vb, vc, hfa, hfb, hfc, hk⟩ := h
      obtain ⟨hsa, hva⟩ := fieldValue_ok_iff.mp hfa
      obtain ⟨hsb, hvb⟩ := fieldValue_ok_iff.mp hfb
      obtain ⟨hsc, hvc⟩ := fieldValue_ok_iff.mp hfc
      exact ⟨hn, a, b, c, va, vb, vc, htext, hsa, hsb, hsc, hva, hvb, hvc,
        (eq_packMasked_ofNat_iff hva hvb hvc).mp hk⟩
  · rintro ⟨hn, a, b, c, va, vb, vc, htext, ha, hb, hc, hva, hvb, hvc, hk⟩
    exact parse_ok hn htext ha hb hc hva hvb hvc hk

/-! ### Lower case -/

theorem bufPrefix_map (f : Byte → Byte) (t : Vector Byte 16) (n : Nat) :
    bufPrefix (t.map f) n = (bufPrefix t n).map f := by
  rw [bufPrefix, bufPrefix, Vector.toList_map, List.map_take]

theorem dot_not_mem_map_lowerHex {g : List Byte} (h : dot ∉ g) : dot ∉ g.map lowerHex := by
  rw [List.mem_map]
  rintro ⟨b, hb, hdot⟩
  exact h ((lowerHex_eq_dot_iff b).mp hdot ▸ hb)

theorem count_dot_map_lowerHex (s : List Byte) : (s.map lowerHex).count dot = s.count dot := by
  induction s with
  | nil => rfl
  | cons b s ih => simp only [List.map_cons, List.count_cons, ih, beq_iff_eq, lowerHex_eq_dot_iff]

/-- Parse takes the same way on the lower-case string: same length, same separators, same segment values. -/
theorem parse_map_lowerHex (t : Vector Byte 16) (n : Nat) : parse (t.map lowerHex) n = parse t n := by
  have hlower := bufPrefix_map lowerHex t n
  rcases parse_cases t n with hn | ⟨hn, hcount⟩ | ⟨hn, a, b, c, htext, ha, hb, hc⟩
  · rw [parse_of_gt _ hn, parse_of_gt _ hn]
  · rw [parse_of_count_ne_two hn hcount, parse_of_count_ne_two hn]
    rwa [hlower, count_dot_map_lowerHex]
  · have hdot : [dot].map lowerHex = [dot] := rfl
    rw [htext, List.map_append, List.map_append, List.map_append, List.map_append, hdot] at hlower
    rw [parse_of_three hn htext ha hb hc, parse_of_three hn hlower (dot_not_mem_map_lowerHex ha)
      (dot_not_mem_map_lowerHex hb) (dot_not_mem_map_lowerHex hc)]
    exact parseFields_congr (segValue_map_lowerHex a) (segValue_map_lowerHex b) (segValue_map_lowerHex c)

/-- Settles O29. -/
theorem caseAndLeadingZerosDoNotMatter : Obligations.CaseAndLeadingZerosDoNotMatter :=
  ⟨segValue_map_lowerHex, fun _ => segValue_zero_cons, parse_map_lowerHex⟩

end Sys2Proof.Machine
end

