-- ==== Sys2Proof/Proofs/TextFormat.lean ====
section
/-! PROOFS. Format: the value of a digit group, the shape of the text, the round trips with Parse, and the bytes
each field fills (R112 to R114, R120, R122, R123). -/

namespace Sys2Proof.Machine

/-! ### The value of a digit group -/

/-- The last `d` base-16 digits of a number make the number modulo 16^d. -/
theorem numeral_digits (x d : Nat) :
    numeral ((List.range d).map fun i => x / 16 ^ (d - 1 - i) % 16) = x % 16 ^ d := by
  induction d with
  | zero => simp [numeral, Nat.mod_one]
  | succ d ih =>
    have htail : ((fun i => x / 16 ^ (d + 1 - 1 - i) % 16) ∘ Nat.succ) = fun i => x / 16 ^ (d - 1 - i) % 16 := by
      funext i
      rw [Function.comp_apply, show d + 1 - 1 - i.succ = d - 1 - i by omega]
    rw [List.range_succ_eq_map, List.map_cons, List.map_map, htail, numeral, ih, List.length_map,
      List.length_range, Nat.mod_pow_succ]
    simp only [Nat.add_sub_cancel, Nat.sub_zero]
    ring

/-- A digit group reads back as the field it shows (R112, R117). -/
theorem segValue_hexGroup {d : Nat} (hd : d ≠ 0) (v : BitVec (4 * d)) :
    segValue (hexGroup d v) = some v.toNat := by
  have hgroup : hexGroup d v = ((List.range d).map fun i => v.extractLsb' (4 * (d - 1 - i)) 4).map hexDigit := by
    rw [hexGroup, List.map_map]
    rfl
  have hdigits : ((List.range d).map fun i => v.extractLsb' (4 * (d - 1 - i)) 4).map BitVec.toNat =
      (List.range d).map fun i => v.toNat / 16 ^ (d - 1 - i) % 16 := by
    simp [Function.comp_def, Nat.shiftRight_eq_div_pow, Nat.pow_mul]
  have hlt : v.toNat < 16 ^ d := by simpa [Nat.pow_mul] using v.isLt
  rw [hgroup, segValue_map_hexDigit (by simpa using hd), hdigits, numeral_digits, Nat.mod_eq_of_lt hlt]

theorem hexGroup_inj {d : Nat} (hd : d ≠ 0) {v w : BitVec (4 * d)} : hexGroup d v = hexGroup d w ↔ v = w := by
  refine ⟨fun h => ?_, congrArg _⟩
  have hval : some v.toNat = some w.toNat := by rw [← segValue_hexGroup hd, h, segValue_hexGroup hd]
  exact BitVec.eq_of_toNat_eq (Option.some.inj hval)

/-! ### The shape of the text -/

theorem isUpperHex_hexDigit (n : BitVec 4) : isUpperHex (hexDigit n) = true := by
  revert n; decide

/-- The upper-case hex digits are the bytes HexDigit gives. -/
theorem exists_hexDigit_of_isUpperHex {b : Byte} (h : isUpperHex b = true) : ∃ n, hexDigit n = b := by
  revert b; decide

theorem isCanonical_format (k : Word) : isCanonical (format k) = true := by
  rw [format_nibbles]
  simp [isCanonical, isUpperHex_hexDigit]

/-- Every nibble of the code has its byte of the text (R114). -/
theorem format_getElem?_nibble (k : Word) {i : Nat} (hi : i < 8) :
    (format k)[if i < 3 then 9 - i else if i < 5 then 8 - i else 7 - i]? =
      some (hexDigit (k.extractLsb' (4 * i) 4)) := by
  rw [format_nibbles]
  interval_cases i <;> rfl

/-- Settles O25: HexDigit is injective, so a nibble shows in its byte. -/
theorem formatShapeAndInjective : Obligations.FormatShapeAndInjective := by
  refine ⟨fun k => ⟨format_length k, isCanonical_format k⟩, fun k k' i hi hne h => hne ?_⟩
  rw [format_getElem?_nibble k hi, format_getElem?_nibble k' hi] at h
  exact hexDigit_injective (Option.some.inj h)

/-! ### Parse of Format -/

/-- The fields of a code, shifted to their places, sum to it (R24). -/
theorem toNat_eq_sum_fields (k : Word) :
    k.toNat = (serviceField k).toNat * 2 ^ 20 + (categoryField k).toNat * 2 ^ 12 + (subcodeField k).toNat := by
  rw [serviceField_toNat, categoryField_toNat, subcodeField_toNat]
  omega

/-- The text of a code parses to the code: the three groups are the three fields (R120). -/
theorem parse_format {t : Vector Byte 16} {k : Word} (h : bufPrefix t 10 = format k) : parse t 10 = .ok k :=
  parse_ok (by decide) h (segValue_hexGroup (d := 3) (by decide) (serviceField k))
    (segValue_hexGroup (d := 2) (by decide) (categoryField k))
    (segValue_hexGroup (d := 3) (by decide) (subcodeField k))
    (serviceField k).isLt (categoryField k).isLt (subcodeField k).isLt (toNat_eq_sum_fields k)

/-- Settles O30. -/
theorem parseOfFormat : Obligations.ParseOfFormat :=
  ⟨fun _ _ => parse_format, fun _ _ _ _ _ _ _ => parse_format⟩

/-! ### Format of Parse -/

/-- One more nibble below a field is one more digit at the end of its group (R112). -/
theorem hexGroup_append_nibble {d : Nat} (v : BitVec (4 * d)) (n : BitVec 4) :
    hexGroup (d + 1) (v ++ n) = hexGroup d v ++ [hexDigit n] := by
  have hlast : (v ++ n).extractLsb' (4 * (d + 1 - 1 - d)) 4 = n := by
    rw [Nat.add_sub_cancel, Nat.sub_self]
    exact BitVec.extractLsb'_append_eq_right
  have hinit : ∀ i < d, (v ++ n).extractLsb' (4 * (d + 1 - 1 - i)) 4 = v.extractLsb' (4 * (d - 1 - i)) 4 := by
    intro i hi
    rw [BitVec.extractLsb'_append_eq_of_le (by omega), show 4 * (d + 1 - 1 - i) - 4 = 4 * (d - 1 - i) by omega]
  rw [hexGroup, hexGroup, List.range_succ, List.map_append, List.map_singleton]
  congr 1
  · exact List.map_congr_left fun i hi => congrArg hexDigit (hinit i (List.mem_range.mp hi))
  · exact congrArg (fun m => [hexDigit m]) hlast

/-- Every string of `d` upper-case hex digits is the group of a field. -/
theorem exists_hexGroup (d : Nat) (g : List Byte) (hlength : g.length = d) (hg : ∀ b ∈ g, isUpperHex b = true) :
    ∃ v : BitVec (4 * d), hexGroup d v = g := by
  induction d generalizing g with
  | zero => exact ⟨0#0, (List.length_eq_zero_iff.mp hlength).symm⟩
  | succ d ih =>
    obtain ⟨init, b, rfl⟩ := List.eq_nil_or_concat' g |>.resolve_left (by rintro rfl; simp at hlength)
    have hinit : init.length = d := by simpa using hlength
    obtain ⟨v, hv⟩ := ih init hinit fun c hc => hg c (List.mem_append_left _ hc)
    obtain ⟨n, hn⟩ := exists_hexDigit_of_isUpperHex (hg b (by simp))
    exact ⟨v ++ n, by rw [hexGroup_append_nibble, hv, hn]⟩

/-- The text of a packed code: the low bits of each value, group by group (R80, R113). -/
theorem format_packMasked (s c u : Word) :
    format (packMasked s c u) =
      hexGroup 3 (s.extractLsb' 0 12) ++ [dot] ++ hexGroup 2 (c.extractLsb' 0 8) ++ [dot] ++
        hexGroup 3 (u.extractLsb' 0 12) := by
  rw [format, serviceField_packMasked, categoryField_packMasked, subcodeField_packMasked]

/-- Canonical text is the text of a code: the one whose fields its three groups show. -/
theorem exists_format_of_isCanonical {s : List Byte} (h : isCanonical s = true) : ∃ k, format k = s := by
  unfold isCanonical at h
  split at h
  · next a b c p d e q x y z =>
    simp only [Bool.and_eq_true, decide_eq_true_eq, and_assoc] at h
    obtain ⟨ha, hb, hc, rfl, hd, he, rfl, hx, hy, hz⟩ := h
    obtain ⟨service, hservice⟩ := exists_hexGroup 3 [a, b, c] rfl (by simp [ha, hb, hc])
    obtain ⟨category, hcategory⟩ := exists_hexGroup 2 [d, e] rfl (by simp [hd, he])
    obtain ⟨subcode, hsubcode⟩ := exists_hexGroup 3 [x, y, z] rfl (by simp [hx, hy, hz])
    refine ⟨packMasked (service.setWidth 32) (category.setWidth 32) (subcode.setWidth 32), ?_⟩
    rw [format_packMasked, BitVec.extractLsb'_setWidth_of_le (by decide),
      BitVec.extractLsb'_setWidth_of_le (by decide), BitVec.extractLsb'_setWidth_of_le (by decide),
      BitVec.extractLsb'_eq_self, BitVec.extractLsb'_eq_self, BitVec.extractLsb'_eq_self, hservice, hcategory,
      hsubcode]
    rfl
  · cases h

/-- Settles O32: canonical text is the text of some code, and by the round trip that is the code Parse gave. -/
theorem formatOfParseIsCanonical : Obligations.FormatOfParseIsCanonical := by
  intro t n k hparse
  refine ⟨isCanonical_format k, fun t' => parse_format, fun h => h ▸ isCanonical_format k, fun hcanonical => ?_⟩
  obtain ⟨k', hk'⟩ := exists_format_of_isCanonical hcanonical
  obtain ⟨hn, -⟩ := (parseAcceptsExactly t n k).mp hparse
  have hten : n = 10 := by
    have hlength := congrArg List.length hk'
    rw [format_length, bufPrefix, List.length_take, Vector.length_toList] at hlength
    omega
  subst hten
  rw [parse_format hk'.symm] at hparse
  rw [← Except.ok.inj hparse, hk']

/-! ### The bytes of each field -/

/-- Values that fit the group are the same when their groups are. -/
theorem hexGroup_extractLsb'_inj {d : Nat} (hd : d ≠ 0) {x y : Word} (hx : x.toNat < 2 ^ (4 * d))
    (hy : y.toNat < 2 ^ (4 * d)) :
    hexGroup d (x.extractLsb' 0 (4 * d)) = hexGroup d (y.extractLsb' 0 (4 * d)) ↔ x = y := by
  rw [hexGroup_inj hd, ← BitVec.toNat_inj, ← BitVec.toNat_inj, BitVec.extractLsb'_toNat,
    BitVec.extractLsb'_toNat, Nat.shiftRight_zero, Nat.shiftRight_zero, Nat.mod_eq_of_lt hx, Nat.mod_eq_of_lt hy]

/-- Settles O33: each group stands at its own bytes of the text, and shows its field exactly. -/
theorem fieldIsolation : Obligations.FieldIsolation := by
  intro s s' c c' u u' hs hs' hc hc' hu hu'
  have service := hexGroup_extractLsb'_inj (d := 3) (by decide) hs hs'
  have category := hexGroup_extractLsb'_inj (d := 2) (by decide) hc hc'
  have subcode := hexGroup_extractLsb'_inj (d := 3) (by decide) hu hu'
  simp only [format_packMasked]
  exact ⟨⟨rfl, rfl, not_congr category⟩, ⟨rfl, not_congr service⟩, ⟨rfl, not_congr subcode⟩⟩

end Sys2Proof.Machine
end

