-- ==== Sys2Proof/Proofs/TextCommands.lean ====
section
/-! PROOFS. The commands FMT and PRS: what each leaves, the causes of PRS in their order, and PRS right after FMT
(R120, R121, R125, R127, R155). -/

namespace Sys2Proof.Machine

/-! ### FMT -/

/-- The state FMT leaves: the text of K in T, its length in TLEN, and STATUS zero (R125). -/
def State.formatted (s : State) : State :=
  ((s.writeT (bufOfBytes (format s.k))).writeTlen 10#32).clearStatus

theorem exec_fmt_formatted (s : State) : exec .fmt s = .next s.formatted := exec_fmt_eq s

theorem State.formatted_frame (s : State) :
    s.formatted =
      { s with t := bufOfBytes (format s.k), tlen := 10#5, err := false, ill := false, cause := .none } := by
  apply State.ext <;> simp [State.formatted]

theorem State.formatted_k (s : State) : s.formatted.k = s.k := by
  simp [State.formatted]

/-- TLEN names the whole text in T (R27, R125). -/
theorem State.text_formatted (s : State) : s.formatted.text = format s.k := by
  have hprefix := bufPrefix_bufOfBytes (format s.k) ((format_length s.k).trans_le (by decide))
  rw [format_length] at hprefix
  rw [State.text, State.formatted_frame]
  exact hprefix

/-- Settles O10: the text of K, and 0x00 in the rest of T. -/
theorem fmtWritesCanonicalText : Obligations.FmtWritesCanonicalText := by
  refine ⟨decode_of_toNat_eq_op rfl, fun s => ⟨bufOfBytes (format s.k), s.formatted, exec_fmt_formatted s,
    State.status_clearStatus _, s.formatted_frame, ?_, s.text_formatted⟩⟩
  rw [bufOfBytes_toList _ ((format_length s.k).trans_le (by decide)), format_length, format_nibbles]
  rfl

/-- After FMT, writing to K what it holds and clearing STATUS changes nothing. -/
theorem State.writeK_formatted (s : State) : (s.formatted.writeK s.k).clearStatus = s.formatted := by
  apply State.ext <;> simp [State.formatted]

/-- Settles O31: PRS reads the text FMT wrote, and gets back the K that is still there. -/
theorem prsAfterFmtIsIdentity : Obligations.PrsAfterFmtIsIdentity := by
  intro s
  have hparse : parse s.formatted.t s.formatted.tlen.toNat = .ok s.k := parse_format s.text_formatted
  refine ⟨s.formatted, exec_fmt_formatted s, ?_, s.formatted_k⟩
  rw [exec_prs_ok hparse, State.writeK_formatted]

/-! ### PRS -/

/-- Settles O11. -/
theorem prsWritesParsedCode : Obligations.PrsWritesParsedCode := by
  refine ⟨decode_of_toNat_eq_op rfl, fun s a b c va vb vc hn htext ha hb hc hva hvb hvc => ?_⟩
  have hk := (eq_packMasked_ofNat_iff hva hvb hvc).mp rfl
  have hparse := parse_ok hn htext ha hb hc hva hvb hvc hk
  exact ⟨_, _, exec_prs_ok hparse, State.status_clearStatus _, rfl, hk⟩

/-- Settles O12, by the result of Parse. -/
theorem prsAlwaysCompletes : Obligations.PrsAlwaysCompletes := by
  refine ⟨decode_of_toNat_eq_op rfl, fun s => ?_⟩
  cases hparse : parse s.t s.tlen.toNat with
  | ok k =>
    exact ⟨_, exec_prs_ok hparse, rfl, fun _ => ⟨rfl, rfl⟩, fun herr => absurd herr Bool.false_ne_true⟩
  | error e =>
    exact ⟨_, exec_prs_error hparse, rfl, fun herr => absurd herr.symm Bool.false_ne_true,
      fun _ => ⟨parse_error_ne_none hparse, rfl, rfl⟩⟩

/-- Settles O13. -/
theorem prsLengthCause : Obligations.PrsLengthCause :=
  fun s hn => exec_prs_error (parse_of_gt s.t hn)

/-- Settles O14. -/
theorem prsSegmentCountCause : Obligations.PrsSegmentCountCause :=
  fun _ hn hcount => exec_prs_error (parse_of_count_ne_two hn hcount)

/-- Settles O15: the loop of Parse stops at its first failing segment, whose cause PRS records. -/
theorem prsSegmentCausesInOrder : Obligations.PrsSegmentCausesInOrder := by
  intro s a b c hn htext hda hdb hdc
  have fails : ∀ {e}, parseFields a b c = .error e → exec .prs s = .next (s.fail e) := fun h =>
    exec_prs_error ((parse_of_three hn htext hda hdb hdc).trans h)
  refine ⟨fun ha => ?_, fun va ha hva => ?_, fun va ha hva => ?_⟩
  · exact fails (parseFields_service_error b c (fieldValue_notHex 12 ha))
  · exact fails (parseFields_service_error b c (fieldValue_range ha hva))
  have hservice := fieldValue_ok_iff.mpr ⟨ha, hva⟩
  refine ⟨fun hb => ?_, fun vb hb hvb => ?_, fun vb hb hvb => ?_⟩
  · exact fails (parseFields_category_error c hservice (fieldValue_notHex 8 hb))
  · exact fails (parseFields_category_error c hservice (fieldValue_range hb hvb))
  have hcategory := fieldValue_ok_iff.mpr ⟨hb, hvb⟩
  refine ⟨fun hc => ?_, fun vc hc hvc => ?_⟩
  · exact fails (parseFields_subcode_error hservice hcategory (fieldValue_notHex 12 hc))
  · exact fails (parseFields_subcode_error hservice hcategory (fieldValue_range hc hvc))

end Sys2Proof.Machine
end

