-- ==== Sys2Proof/Proofs/ControlCommands.lean ====
section
/-! PROOFS. NOP and the illegal command word: each writes STATUS and nothing else (R140, R142, R143). -/

namespace Sys2Proof.Machine

/-! ### NOP -/

theorem exec_nop_eq (s : State) : exec .nop s = .next s.clearStatus := rfl

/-- Settles O6. -/
theorem nopClearsStatusOnly : Obligations.NopClearsStatusOnly :=
  ⟨decode_of_toNat_eq_op rfl, fun s => ⟨_, exec_nop_eq s, State.status_clearStatus s, rfl⟩⟩

/-! ### Illegal command words -/

/-- STATUS with ILL alone reads 2 (R28, R143). -/
@[simp] theorem State.status_signalIllegal (s : State) : s.signalIllegal.status = 0x00000002#32 := by
  simp [State.status, Cause.code]

/-- Both kinds of illegal word are rejected by the decoder (R65). -/
theorem exists_decode_eq_error {w : Word} (h : w.toNat / 8 ≠ 0 ∨ w.toNat = 6 ∨ w.toNat = 7) :
    ∃ e, decode w = .error e := by
  rcases h with hrsv | hop
  · exact ⟨_, decode_of_rsv_ne_zero hrsv⟩
  · exact ⟨_, decode_of_op_reserved hop⟩

/-- The step that serves the write of a rejected word to CMD records IllegalCommand and answers OKAY: the access
is legal, only the word is not (R140, R143). -/
theorem step_cmd_write_of_error {s : State} {es : List Event} {w : Word} {e : Illegal}
    (hd : decode w = .error e) (hp : s.port = .access (.write .w32 0x00#6 w) :: es) :
    step s =
      .next (({ s with port := es }.signalIllegal).answer (.write .w32 0x00#6 w) .okay 0#32) := by
  rw [step_access hp, hostStep_write _ ((legal_iff _).mpr ⟨rfl, rfl⟩), if_pos rfl, execCmd_of_error _ hd,
    onNext_next]

/-- Settles O5: the decoder rejects the word, and the reply added after IllegalCommand leaves STATUS as it is. -/
theorem illegalWordSetsIllOnly : Obligations.IllegalWordSetsIllOnly := by
  intro s es w hillegal hp
  obtain ⟨e, hd⟩ := exists_decode_eq_error hillegal
  exact ⟨_, step_cmd_write_of_error hd hp, State.status_signalIllegal { s with port := es }, rfl⟩

end Sys2Proof.Machine
end

