-- ==== Sys2Proof/Proofs/ExceptionSources.lean ====
section
/-! PROOFS. Where the conditions ERR and ILL come from: PRS, and an illegal command word (R150 to R152). -/

namespace Sys2Proof.Machine

/-- The decoder rejects the illegal words and no others (R65, R66). -/
theorem exists_decode_eq_error_iff (w : Word) :
    (∃ e, decode w = .error e) ↔ w.toNat / 8 ≠ 0 ∨ w.toNat = 6 ∨ w.toNat = 7 := by
  refine ⟨fun ⟨e, he⟩ => ?_, exists_decode_eq_error⟩
  by_contra hlegal
  have assigned : w.toNat < 6 := by omega
  have accepted : ∃ i, decode w = .ok i := by
    match hw : w.toNat, assigned with
    | 0, _ => exact ⟨.nop, decode_of_toNat_eq_op hw⟩
    | 1, _ => exact ⟨.enc, decode_of_toNat_eq_op hw⟩
    | 2, _ => exact ⟨.encu, decode_of_toNat_eq_op hw⟩
    | 3, _ => exact ⟨.dec, decode_of_toNat_eq_op hw⟩
    | 4, _ => exact ⟨.fmt, decode_of_toNat_eq_op hw⟩
    | 5, _ => exact ⟨.prs, decode_of_toNat_eq_op hw⟩
  obtain ⟨i, hi⟩ := accepted
  rw [he] at hi
  cases hi

/-- No command records ILL (R151, R152). -/
theorem exec_ill {i : Instr} {s t : State} (h : exec i s = .next t) : t.ill = false := by
  rcases exec_cases h with ⟨-, rfl⟩ | ⟨-, rfl⟩ | ⟨-, rfl⟩ | ⟨-, rfl⟩ | ⟨-, rfl⟩ | ⟨-, k, -, rfl⟩ |
    ⟨-, c, -, rfl⟩
  all_goals rfl

/-- The one command that can record ERR is PRS (R150). -/
theorem eq_prs_of_exec_err {i : Instr} {s t : State} (h : exec i s = .next t) (herr : t.err = true) :
    i = .prs := by
  by_contra hi
  obtain ⟨hclear, -, -⟩ := exec_status_of_ne_prs h hi
  rw [herr] at hclear
  cases hclear

/-- A word written to CMD leaves ERR set only if it is the word of PRS, and ILL only if it is illegal: no command
keeps a condition it finds (R31). -/
theorem execCmd_condition_sources {w : Word} {s t : State} (h : execCmd w s = .next t) :
    (t.err = true → w = encode .prs) ∧
    (t.ill = true → w.toNat / 8 ≠ 0 ∨ w.toNat = 6 ∨ w.toNat = 7) := by
  rcases execCmd_cases h with ⟨i, hd, hi⟩ | ⟨e, hd, rfl⟩
  · refine ⟨fun herr => ?_, fun hill => ?_⟩
    · rw [eq_encode_of_decode hd, eq_prs_of_exec_err hi herr]
    · rw [exec_ill hi] at hill
      cases hill
  · refine ⟨fun herr => ?_, fun _ => (exists_decode_eq_error_iff w).mp ⟨e, hd⟩⟩
    rw [State.signalIllegal_err] at herr
    cases herr

/-- One access sets a condition only as a command word in a 32-bit write to CMD; any other access leaves ERR and
ILL as they are. -/
theorem hostStep_condition_sources {a : Access} {s t : State} (h : hostStep a s = .next t) :
    (t.err = s.err ∧ t.ill = s.ill) ∨
    ∃ w u, a = cmdWrite w ∧ execCmd w s = .next u ∧ t.err = u.err ∧ t.ill = u.ill := by
  rcases hostStep_cases h with ⟨-, rfl⟩ | ⟨w, off, -, -, rfl⟩ | ⟨w, v, u, rfl, hl, hu, rfl⟩ |
    ⟨w, off, v, -, -, -, rfl⟩
  · exact .inl ⟨rfl, rfl⟩
  · exact .inl ⟨rfl, rfl⟩
  · obtain ⟨rfl, -⟩ := (legal_iff _).mp hl
    exact .inr ⟨v, u, rfl, hu, rfl, rfl⟩
  · obtain ⟨he, hi, -, -, -⟩ := writeWindow_frame off v s
    exact .inl ⟨he, hi⟩

/-- Settles O51, by what a step can do: idle (both conditions stay), a reset (both are cleared), or one access,
which changes them only by a command word. -/
theorem conditionsHaveOneSource : Obligations.ConditionsHaveOneSource := by
  intro s t hstep
  rcases step_cases hstep with ⟨-, rfl⟩ | ⟨es, -, rfl⟩ | ⟨a, es, hp, ht⟩
  · exact ⟨.inl, .inl⟩
  · exact ⟨fun herr => absurd herr Bool.false_ne_true, fun hill => absurd hill Bool.false_ne_true⟩
  · rcases hostStep_condition_sources ht with ⟨he, hi⟩ | ⟨w, u, rfl, hu, he, hi⟩
    · exact ⟨fun herr => .inl (he.symm.trans herr), fun hill => .inl (hi.symm.trans hill)⟩
    · obtain ⟨herrSource, hillSource⟩ := execCmd_condition_sources hu
      rw [he, hi]
      refine ⟨fun herr => .inr ⟨es, ?_⟩, fun hill => .inr ⟨w, es, hp, hillSource hill⟩⟩
      rw [hp, herrSource herr]
      rfl

end Sys2Proof.Machine
end

