-- ==== Sys2Proof/Proofs/ResetState.lean ====
section
/-! PROOFS. The reset state: its STATUS and its string, the reset event, and what the commands do right after it
(R170, R171). -/

namespace Sys2Proof.Machine

/-! ### The registers -/

/-- There is no condition at reset for a command to clear (R31, R170). -/
theorem State.clearStatus_reset : State.reset.clearStatus = State.reset := rfl

@[simp] theorem State.status_reset : State.reset.status = 0#32 := by
  rw [← State.clearStatus_reset, State.status_clearStatus]

/-- A length of zero names the empty string, whatever T holds (R27). -/
theorem State.text_of_tlen_zero {s : State} (h : s.tlen = 0#5) : s.text = [] := by
  rw [State.text, h]
  exact List.take_zero

/-- Settles O41: the reset state field by field. -/
theorem resetStateIsZero : Obligations.ResetStateIsZero :=
  ⟨State.reset_k, State.reset_fs, State.reset_fc, State.reset_fu, State.reset_tlen,
    by rw [State.reset_t, Vector.toList_replicate], State.reset_err, State.reset_ill, State.reset_cause,
    State.status_reset⟩

/-! ### The reset event -/

/-- Settles O42: the step serves the reset at the front of the port. -/
theorem resetEventZeroesRegisters : Obligations.ResetEventZeroesRegisters :=
  fun _ _ => step_reset

/-! ### The commands right after reset -/

/-- The fields of the zero code are zero (R83). -/
theorem unpack_zero : unpack 0#32 = ⟨0#32, 0#32, 0#32⟩ := by decide

/-- DEC finds at reset what it would write: zero fields of a zero code (R100, R171). -/
theorem State.decoded_reset : State.reset.decoded = State.reset := by
  rw [State.decoded_frame, State.reset_k, unpack_zero]
  rfl

/-- PRS on the empty string: it holds no separator, so the count is not three segments (R118, R127). -/
theorem exec_prs_of_tlen_zero {s : State} (h : s.tlen = 0#5) : exec .prs s = .next (s.fail .segmentCount) := by
  have hlength : s.tlen.toNat ≤ 16 := by simp [h]
  have hcount : s.text.count 0x2E#8 ≠ 2 := by simp [State.text_of_tlen_zero h]
  exact prsSegmentCountCause s hlength hcount

/-- Settles O43: the reset state is one that DEC leaves as it is, so packing after it gives back its K, which is
zero; FMT shows that K, and PRS sees the empty string. -/
theorem commandsAfterReset : Obligations.CommandsAfterReset := by
  obtain ⟨-, -, -, -, hformat, -⟩ := boundaryValues
  have hdec := exec_dec_eq State.reset
  have henc := exec_enc_decoded State.reset
  have hencu := exec_encu_decoded State.reset
  rw [State.decoded_reset] at hdec henc hencu
  exact ⟨⟨_, hdec, rfl, rfl, rfl⟩,
    ⟨_, exec_fmt_formatted _, (State.text_formatted _).trans hformat⟩,
    ⟨_, exec_prs_of_tlen_zero State.reset_tlen, rfl, rfl⟩,
    ⟨_, henc, rfl⟩,
    ⟨_, hencu, rfl⟩⟩

end Sys2Proof.Machine
end
